-- ==== Sys2Proof/Word.lean ====
section
/-! DEFINITION. The block's notation for words and bit strings (00_scope.md R8 to R11). A `W`-bit word is a
`BitVec W`, with `uint` its `toNat` and `sint_W` its `toInt`. -/

namespace Sys2Proof

/-- R9: a bit string, its first bit at the head of the list. `|b|`, `b(i)`, `++` and `b(i..j)` are the list operations. -/
abbrev BitString := List Bool

/-- R11: `bitlen(0) = 0` and `bitlen(x) = floor(log2(x)) + 1` for `x >= 1`. -/
def bitlen (x : Nat) : Nat := if x = 0 then 0 else Nat.log2 x + 1

end Sys2Proof
end

