-- ==== Sys2Proof/Config.lean ====
section
/-! DEFINITION. The block's one parameter `W` (00_scope.md R6) and the constants derived from it (R7). Every one is a
function of `W`, so that a statement about every `Params` is a statement about every instance of the block. -/

namespace Sys2Proof.Config

/-- R7: the largest encodable and decodable integer. -/
abbrev XMAX (W : Nat) : Nat := 2 ^ (W - 1) - 1
/-- R7: the largest `N`, the number of bits of the binary form of an encodable integer. -/
abbrev NMAX (W : Nat) : Nat := W - 1
/-- R7: the largest count of zeros in the length part of a code, `L = N - 1`. -/
abbrev LMAX (W : Nat) : Nat := W - 2
/-- R7: the largest code length `2N - 1`. -/
abbrev CMAX (W : Nat) : Nat := 2 * W - 3
/-- R7: the width of the encoder's `enc_out_code`. -/
abbrev CW (W : Nat) : Nat := 2 * W - 3
/-- R7: the width of `enc_out_n`. -/
abbrev NW (W : Nat) : Nat := bitlen (W - 1)
/-- R7: the width of `enc_out_len`. -/
abbrev LENW (W : Nat) : Nat := bitlen (2 * W - 3)
/-- R7: the width of the decoder's counter `cnt`. -/
abbrev CNTW (W : Nat) : Nat := max 1 (bitlen (W - 2))
/-- R7: the width of the decoder's accumulator `acc`. -/
abbrev AW (W : Nat) : Nat := W - 1

/-- R6: the parameter of one instance of the block. An instance with `W < 2` is refused at elaboration
(92_eei_decisions.md D30): no value of this type stands for one. -/
structure Params where
  W : Nat
  two_le_W : 2 ≤ W
deriving DecidableEq, Repr

/-- The instance whose reset state `Machine.State.reset` shows: `W = 32`, the width of the spec's own test vectors (D2).
DESIGN CHOICE (log entry 1): the spec leaves `W` open, and no statement rests on this value. -/
def shown : Params := ⟨32, by decide⟩

end Sys2Proof.Config
end

