-- ==== Sys2Proof/Syntax.lean ====
section
/-! DEFINITION. The operations of the block: one constructor per row of the opcode table (30_encoding.md R83). An
operation is one transfer on one of the two input channels. -/

namespace Sys2Proof

/-- The transfers that select an operation (R83, R84). -/
inductive Instr where
  /-- `ENC d`: one `enc_in` transfer of the word `d`, which is `w` bits wide (R71, R107). -/
  | enc (w : Nat) (d : BitVec w)
  /-- `DBIT0`: one `dec_in` transfer of the symbol `00`, the next input bit is 0 (R150). -/
  | dbit0
  /-- `DBIT1`: one `dec_in` transfer of the symbol `01`, the next input bit is 1 (R152). -/
  | dbit1
  /-- `DEND`: one `dec_in` transfer of the symbol `10`, the input bit sequence has ended (R154). -/
  | dend
  /-- `DRSV`: one `dec_in` transfer of the reserved symbol `11` (R156). -/
  | drsv
deriving DecidableEq, Repr

end Sys2Proof
end

