-- ==== Sys2Proof/WellFormed.lean ====
section
/-! DEFINITION. Which operations an instance of width `W` has. -/

namespace Sys2Proof

/-- `ENC` carries one whole word of the port's width `W` (R61, R71, R76); a symbol has no operand beyond itself (R77). -/
def wellFormed (W : Nat) : Instr → Bool
  | .enc w _ => w == W
  | .dbit0 => true
  | .dbit1 => true
  | .dend => true
  | .drsv => true

end Sys2Proof
end

