-- ==== Sys2Proof/Decode.lean ====
section
/-! DEFINITION. From the payload of an input transfer to the operation it selects, and back (30_encoding.md R70 to R73,
R83). The block fetches nothing and no port carries bytes (R59, R67): what is decoded is a payload on a channel. -/

namespace Sys2Proof

/-- The two input channels (R51). -/
inductive Channel where
  | encIn
  | decIn
deriving DecidableEq, Repr

/-- One payload offered on an input channel. -/
structure Payload where
  channel : Channel
  width : Nat
  bits : BitVec width
deriving DecidableEq, Repr

/-- Why a payload is no payload of an instance: `encWordWidth`, a word on `enc_in` that is not `W` bits wide (R71);
`decSymbolWidth`, a symbol on `dec_in` that is not 2 bits wide (R73). -/
inductive DecodeError where
  | encWordWidth
  | decSymbolWidth
deriving DecidableEq, Repr

/-- R73: `sym[1]` tells a bit symbol from a non-bit symbol, and `sym[0]` is the bit of a bit symbol. -/
def decodeSym (sym : BitVec 2) : Instr :=
  match sym.getLsbD 1, sym.getLsbD 0 with
  | false, false => .dbit0
  | false, true => .dbit1
  | true, false => .dend
  | true, true => .drsv

/-- R83: the operation a payload selects in an instance of width `W`. -/
def decode (W : Nat) (p : Payload) : Except DecodeError Instr :=
  match p.channel with
  | .encIn => if p.width = W then .ok (.enc p.width p.bits) else .error .encWordWidth
  | .decIn => if p.width = 2 then .ok (decodeSym (p.bits.setWidth 2)) else .error .decSymbolWidth

/-- R71, R73: the payload of an operation. -/
def encode : Instr → Payload
  | .enc w d => ⟨.encIn, w, d⟩
  | .dbit0 => ⟨.decIn, 2, 0b00#2⟩
  | .dbit1 => ⟨.decIn, 2, 0b01#2⟩
  | .dend => ⟨.decIn, 2, 0b10#2⟩
  | .drsv => ⟨.decIn, 2, 0b11#2⟩

/-- The mnemonic of an operation (R83). -/
def mnemonic : Instr → String
  | .enc _ _ => "ENC"
  | .dbit0 => "DBIT0"
  | .dbit1 => "DBIT1"
  | .dend => "DEND"
  | .drsv => "DRSV"

/-- R84: the text of one input transfer. The operand of `ENC` is written in decimal, as the signed integer of the word. -/
def transferText : Instr → String
  | .enc _ d => "ENC " ++ toString d.toInt
  | .dbit0 => "DBIT0"
  | .dbit1 => "DBIT1"
  | .dend => "DEND"
  | .drsv => "DRSV"

/-- The payload that a number of the opcode table stands for in an instance of width `W`. A payload does not name its
channel, so the channel is read from the row's size: a row of one byte is a 2-bit symbol, any other row is a word of
`enc_in`. DESIGN CHOICE (log entry 4). -/
def payloadOfTableWord (W nbits w : Nat) : Option Payload :=
  if 1 ≤ nbits ∧ nbits ≤ 8 then
    if w < 4 then some ⟨.decIn, 2, BitVec.ofNat 2 w⟩ else none
  else
    if w < 2 ^ W then some ⟨.encIn, W, BitVec.ofNat W w⟩ else none

/-- The operation that a number of the opcode table selects in an instance of width `W`. -/
def decodeTableWordAt (W nbits w : Nat) : Option Instr :=
  match payloadOfTableWord W nbits w with
  | some p => (decode W p).toOption
  | none => none

/-- The same in the shown instance (`W = 32`, log entry 1). -/
def decodeTableWord (nbits w : Nat) : Option Instr := decodeTableWordAt Config.shown.W nbits w

end Sys2Proof
end

