-- ==== Sys2Proof/Machine/State.lean ====
section
/-! DEFINITION. The state of the block (10_state.md R24, R30), the host's input as plain data, the state after reset
(70_reset_and_hazards.md R220), and the reasons a step can stop. -/

namespace Sys2Proof.Machine

open Sys2Proof.Config

/-- R75: the status codes both units share. Codes 6 and 7 are reserved and never produced, and a model may leave them
out of its status type (R82). -/
inductive Status where
  | ok
  | invalidInput
  | prefixCutoff
  | offsetCutoff
  | valueOverflow
  | illegalSymbol
deriving DecidableEq, Repr

/-- R31: the states of the decoder. The encoding `11` is unreachable, and a model may leave it out (D29). -/
inductive Fs where
  | scanPrefix
  | readOffset
  | drain
deriving DecidableEq, Repr

/-- R74: the two kinds of decoder record. -/
inductive Kind where
  | value
  | done
deriving DecidableEq, Repr

/-- R72: the fields of an encoder response. -/
structure Response (W : Nat) where
  status : Status
  n : BitVec (NW W)
  len : BitVec (LENW W)
  code : BitVec (CW W)
deriving DecidableEq, Repr

/-- R74: the fields of a decoder record. -/
structure Record (W : Nat) where
  kind : Kind
  status : Status
  data : BitVec W
deriving DecidableEq, Repr

/-- A unit's one-deep output register (R54): `ov` says that `held` is a record not yet taken. While `ov` is false
`held` keeps the last record loaded (D18). -/
structure OutReg (α : Type) where
  ov : Bool
  held : α
deriving DecidableEq, Repr

/-- R24: the encoder's state is its output register and nothing else: `E.ov`, `E.status`, `E.n`, `E.len`, `E.code`. -/
structure Encoder (W : Nat) where
  out : OutReg (Response W)
deriving DecidableEq, Repr

/-- R30: the decoder's state: `D.fs`, `D.cnt`, `D.acc`, `D.err`, and in `out` its output register `D.ov`, `D.kind`,
`D.status`, `D.data`. -/
structure Decoder (W : Nat) where
  fs : Fs
  cnt : BitVec (CNTW W)
  acc : BitVec (AW W)
  err : Status
  out : OutReg (Record W)
deriving DecidableEq, Repr

/-- The input ports at one rising edge (R21 to R23). Each is 0 or 1 (R232). -/
structure Inputs (W : Nat) where
  rst : Bool
  encInValid : Bool
  encInData : BitVec W
  encOutReady : Bool
  decInValid : Bool
  decInSym : BitVec 2
  decOutReady : Bool
deriving DecidableEq, Repr

/-- The state of the machine: the parameter of the instance (R6), which no step changes; the encoder and the decoder
(R16); and the host, as the input ports it will drive at the coming edges, the next edge first (log entry 2). -/
structure State where
  params : Params
  enc : Encoder params.W
  dec : Decoder params.W
  pending : List (Inputs params.W)
deriving DecidableEq, Repr

/-- No rule of the spec stops the block: it has no trap, and every error is a status code in a record
(60_exceptions.md R190, R196). So there is no fault, and no meaning can raise one: safe. -/
inductive Fault where
deriving DecidableEq, Repr

/-- Why a step or a meaning has nothing to do. -/
inductive Refusal where
  /-- An operation that `exec` gives no meaning yet: raised by an arm of `exec`, by name; safe. None is left. -/
  | notModelled (mnemonic : String)
  /-- `ENC` with a word that is not as wide as the instance's port: raised by `execEnc` alone; safe. Such a term is
  ill-formed: no transfer of the block is it (R60, R61), and no step of a run offers it. -/
  | wordNotPortWidth
deriving DecidableEq, Repr

/-- The response that the encoder's output register holds after reset (R24). -/
def Response.zero (W : Nat) : Response W := ⟨.ok, 0, 0, 0⟩

/-- The record that the decoder's output register holds after reset (R30). -/
def Record.zero (W : Nat) : Record W := ⟨.value, .ok, 0⟩

/-- R24, R220: the encoder after reset. -/
def Encoder.reset (W : Nat) : Encoder W := ⟨⟨false, Response.zero W⟩⟩

/-- R30, R220: the decoder after reset. -/
def Decoder.reset (W : Nat) : Decoder W := ⟨.scanPrefix, 0, 0, .ok, ⟨false, Record.zero W⟩⟩

/-- An instance right after reset (R220), the host offering nothing. -/
def State.resetOf (p : Params) : State := ⟨p, Encoder.reset p.W, Decoder.reset p.W, []⟩

/-- The shown instance (log entry 1) right after reset. -/
def State.reset : State := State.resetOf Config.shown

end Sys2Proof.Machine
end

