-- ==== Sys2Proof/Machine/Flags.lean ====
section
/-! DEFINITION. The block has no condition flags: its outcomes are the status fields of its records (10_state.md R34).
This file computes the statuses, and gives the numbers of the codes. -/

namespace Sys2Proof.Machine

/-- R75: the number of a status, as `enc_out_status` and `dec_out_status` carry it. -/
def Status.code : Status → BitVec 3
  | .ok => 0
  | .invalidInput => 1
  | .prefixCutoff => 2
  | .offsetCutoff => 3
  | .valueOverflow => 4
  | .illegalSymbol => 5

/-- R74: the bit of a record's kind, as `dec_out_kind` carries it. -/
def Kind.code : Kind → BitVec 1
  | .value => 0
  | .done => 1

/-- R31: the encoding of `D.fs`. -/
def Fs.code : Fs → BitVec 2
  | .scanPrefix => 0b00
  | .readOffset => 0b01
  | .drain => 0b10

/-- R154: the outcome of a frame whose END arrives in decoder state `D`. At a code boundary it is OK, not a cutoff
(90_conflicts.md C4). -/
def endStatus {W : Nat} (D : Decoder W) : Status :=
  match D.fs with
  | .scanPrefix => if D.cnt.toNat = 0 then .ok else .prefixCutoff
  | .readOffset => .offsetCutoff
  | .drain => D.err

end Sys2Proof.Machine
end

