-- ==== Sys2Proof/Machine/Operands.lean ====
section
/-! DEFINITION. The operands of the two units: the encoder's word and its parts (40_encoder.md R101 to R106) and the
decoder's offset accumulator (41_decoder.md R145). -/

namespace Sys2Proof.Machine

open Sys2Proof.Config

/-- R71, R76: the encoder's operand, `x = sint_W(d)`. -/
def encOperand {W : Nat} (d : BitVec W) : Int := d.toInt

/-- R101: the input is valid exactly when `x >= 1`. -/
def validInput {W : Nat} (d : BitVec W) : Bool := decide (1 ≤ encOperand d)

/-- R102: the leading-one detector. For `i` in `0 .. W-2`, in order, a 1 in `d[i]` makes `N = i + 1`. -/
def widthOf {W : Nat} (d : BitVec W) : Nat :=
  (List.range (W - 1)).foldl (fun N i => if d.getLsbD i then i + 1 else N) 0

/-- R105: the offset `x[N-2:0]`, the `N - 1` bits below the leading 1, empty when `N = 1`. -/
def offsetOf {W : Nat} (d : BitVec W) (N : Nat) : BitVec (N - 1) := d.extractLsb' 0 (N - 1)

/-- R103, R106, R107: `zext_CW({0^(N-1), 1'b1, x[N-2:0]})`, the code right-aligned in its field. -/
def assembleCode {W : Nat} (d : BitVec W) (N : Nat) : BitVec (CW W) :=
  ((0#(N - 1) ++ 1#1) ++ offsetOf d N).setWidth (CW W)

/-- R145: the accumulator with the offset bit `b` shifted in at the least-significant end, `2 * acc + b`, exact (R8). -/
def shiftIn {A : Nat} (acc : BitVec A) (b : Bool) : Nat := 2 * acc.toNat + b.toNat

end Sys2Proof.Machine
end

