-- ==== Sys2Proof/Machine/Ops.lean ====
section
/-! DEFINITION. The operations the meanings share: the handshake (20_memory.md R52, R53), the output register (R54),
the error latch of the decoder and the frame boundary (41_decoder.md R148, R149). -/

namespace Sys2Proof.Machine

open Sys2Proof.Config

abbrev Result := Host.Outcome State Fault Refusal

/-- `s` with another encoder. -/
abbrev State.setEnc (s : State) (e : Encoder s.params.W) : State := { s with enc := e }

/-- `s` with another decoder. -/
abbrev State.setDec (s : State) (d : Decoder s.params.W) : State := { s with dec := d }

/-- `s` with other inputs to come. -/
abbrev State.setPending (s : State) (l : List (Inputs s.params.W)) : State := { s with pending := l }

/-- R53: `in_ready = !rst && (!S.ov || out_ready)`. -/
def inReady (rst ov outReady : Bool) : Bool := !rst && (!ov || outReady)

/-- R52: `in_fire = in_valid && in_ready`. -/
def inFire (rst valid ov outReady : Bool) : Bool := valid && inReady rst ov outReady

/-- R52: `out_fire = out_valid && out_ready`, and no transfer at an edge with `rst == 1`. -/
def outFire (rst ov outReady : Bool) : Bool := !rst && (ov && outReady)

/-- R54: the output register after an edge with `rst == 0`. -/
def outUpdate {α : Type} (produced : Option α) (fired : Bool) (r : OutReg α) : OutReg α :=
  match produced with
  | some x => ⟨true, x⟩
  | none => if fired then { r with ov := false } else r

/-- R54 at an edge at which the unit's input is transferred. There `in_ready` holds, so a record that the register
still holds is taken at the same edge: `out_fire` is `S.ov` (R53). DEDUCED (log entry 3). -/
def emitAtTransfer {α : Type} (produced : Option α) (r : OutReg α) : OutReg α := outUpdate produced r.ov r

/-- The encoder answers the word it accepts with the response `r` (R100, R107). -/
def respond (s : State) (r : Response s.params.W) : Result :=
  .next (s.setEnc { s.enc with out := emitAtTransfer (some r) s.enc.out })

/-- The decoder accepts a symbol: its fields become those of `D`, and the record, if there is one, is loaded (R140). -/
def accept (s : State) (D : Decoder s.params.W) (produced : Option (Record s.params.W)) : Result :=
  .next (s.setDec { D with out := emitAtTransfer produced s.dec.out })

/-- R148, R200: `raise E`, the decoder's entry into its error state. No record is emitted at this edge. -/
def raiseError {W : Nat} (e : Status) (D : Decoder W) : Decoder W :=
  { D with err := e, fs := .drain, cnt := 0, acc := 0 }

/-- R149, R201: `boundary`, the way back from the error state and the end of every frame. -/
def boundary {W : Nat} (D : Decoder W) : Decoder W :=
  { D with fs := .scanPrefix, cnt := 0, acc := 0, err := .ok }

/-- R149: `code_done`, the boundary after a VALUE record, without the write of `D.err`. -/
def codeDone {W : Nat} (D : Decoder W) : Decoder W :=
  { D with fs := .scanPrefix, cnt := 0, acc := 0 }

/-- R74: the VALUE record of the integer `x`. -/
def valueRecord (W x : Nat) : Record W := ⟨.value, .ok, BitVec.ofNat W x⟩

/-- R74: the DONE record of the outcome `e`. -/
def doneRecord (W : Nat) (e : Status) : Record W := ⟨.done, e, 0⟩

/-- R150, R152 in READ_OFFSET: the offset bit `b`. The last one completes the code and emits its value (R143, R145). -/
def readOffsetBit (s : State) (b : Bool) : Result :=
  if s.dec.cnt.toNat = 1 then
    accept s (codeDone s.dec) (some (valueRecord _ (shiftIn s.dec.acc b)))
  else
    accept s { s.dec with acc := BitVec.ofNat _ (shiftIn s.dec.acc b), cnt := s.dec.cnt - 1 } none

/-- R220: every field of both units at its reset value. -/
def resetUnits (s : State) : State :=
  { s with enc := Encoder.reset s.params.W, dec := Decoder.reset s.params.W }

/-- `f` after a step that answers a next state; a stop stays a stop. -/
def andThen (o : Result) (f : State → Result) : Result :=
  match o with
  | .next s => f s
  | .fault r => .fault r
  | .refused r => .refused r

end Sys2Proof.Machine
end

