-- ==== Sys2Proof/Machine/Decoder.lean ====
section
/-! DEFINITION. The decoder's four operations, one per symbol (41_decoder.md R150 to R156). A meaning is the state after
an edge with `rst == 0` at which its symbol is transferred and the encoder's channels are idle. -/

namespace Sys2Proof.Machine

open Sys2Proof.Config

/-- R150: `DBIT0`, the next input bit is 0. In SCAN_PREFIX the width guard (R147) fails the frame at `cnt == LMAX`. -/
def execDbit0 (s : State) : Result :=
  match s.dec.fs with
  | .scanPrefix =>
    if s.dec.cnt.toNat = LMAX s.params.W then accept s (raiseError .valueOverflow s.dec) none
    else accept s { s.dec with cnt := s.dec.cnt + 1 } none
  | .readOffset => readOffsetBit s false
  | .drain => accept s s.dec none

/-- R152: `DBIT1`, the next input bit is 1. In SCAN_PREFIX it is the terminator: alone it is the code of 1, and after
`L >= 1` zeros it starts the accumulator, `cnt` keeping `L`. -/
def execDbit1 (s : State) : Result :=
  match s.dec.fs with
  | .scanPrefix =>
    if s.dec.cnt.toNat = 0 then accept s s.dec (some (valueRecord _ 1))
    else accept s { s.dec with acc := 1, fs := .readOffset } none
  | .readOffset => readOffsetBit s true
  | .drain => accept s s.dec none

/-- R154: `DEND`, the end of the frame. -/
def execDend (s : State) : Result :=
  accept s (boundary s.dec) (some (doneRecord _ (endStatus s.dec)))

/-- R156: `DRSV`, the reserved symbol. In DRAIN the first error stays latched. -/
def execDrsv (s : State) : Result :=
  match s.dec.fs with
  | .scanPrefix => accept s (raiseError .illegalSymbol s.dec) none
  | .readOffset => accept s (raiseError .illegalSymbol s.dec) none
  | .drain => accept s s.dec none

end Sys2Proof.Machine
end

