-- ==== Sys2Proof/Machine/Encoder.lean ====
section
/-! DEFINITION. The encoder's one operation (40_encoder.md R107). A meaning is the state after an edge with `rst == 0`
at which its transfer happens and the other unit's channels are idle. -/

namespace Sys2Proof.Machine

open Sys2Proof.Config

/-- R104: the response to an input that is not positive. -/
def invalidResponse (W : Nat) : Response W := ⟨.invalidInput, 0, 0, 0⟩

/-- R106: the response to a valid input. -/
def okResponse {W : Nat} (d : BitVec W) : Response W :=
  { status := .ok
    n := BitVec.ofNat _ (widthOf d)
    len := BitVec.ofNat _ (2 * widthOf d - 1)
    code := assembleCode d (widthOf d) }

/-- R107: the response to the word `d`. -/
def responseTo {W : Nat} (d : BitVec W) : Response W :=
  if validInput d then okResponse d else invalidResponse W

/-- R107: `ENC d`. A word of another width than the port's is no transfer of the instance (R61). -/
def execEnc (w : Nat) (d : BitVec w) (s : State) : Result :=
  if w = s.params.W then respond s (responseTo (d.setWidth s.params.W)) else .refused .wordNotPortWidth

end Sys2Proof.Machine
end

