-- ==== Sys2Proof/Machine/Dispatch.lean ====
section
/-! DEFINITION. Every operation's meaning, one arm per constructor. -/

namespace Sys2Proof.Machine

def exec (i : Instr) (s : State) : Host.Outcome State Fault Refusal :=
  match i with
  | .enc w d => Sys2Proof.Machine.execEnc w d s
  | .dbit0 => Sys2Proof.Machine.execDbit0 s
  | .dbit1 => Sys2Proof.Machine.execDbit1 s
  | .dend => Sys2Proof.Machine.execDend s
  | .drsv => Sys2Proof.Machine.execDrsv s

end Sys2Proof.Machine
end

