-- ==== Sys2Proof/Machine/Edge.lean ====
section
/-! DEFINITION. One rising edge of `clk` (00_scope.md R13): reset over everything (R198, R220), else each unit's
transfers (20_memory.md R52 to R54). The units share no state (R16), so one may be worked out after the other. -/

namespace Sys2Proof.Machine

/-- All inputs 0: the host offers nothing and takes nothing. -/
def idleInputs (W : Nat) : Inputs W := ⟨false, false, 0, false, false, 0, false⟩

/-- The encoder's part of an edge with `rst == 0`. -/
def encEdge {w : Nat} (i : Inputs w) (s : State) : Result :=
  if inFire false i.encInValid s.enc.out.ov i.encOutReady then exec (.enc w i.encInData) s
  else .next (s.setEnc { s.enc with out := outUpdate none (outFire false s.enc.out.ov i.encOutReady) s.enc.out })

/-- The decoder's part of an edge with `rst == 0`. -/
def decEdge {w : Nat} (i : Inputs w) (s : State) : Result :=
  if inFire false i.decInValid s.dec.out.ov i.decOutReady then exec (decodeSym i.decInSym) s
  else .next (s.setDec { s.dec with out := outUpdate none (outFire false s.dec.out.ov i.decOutReady) s.dec.out })

/-- The whole edge. -/
def edge {w : Nat} (i : Inputs w) (s : State) : Result :=
  if i.rst then .next (resetUnits s) else andThen (encEdge i s) (decEdge i)

/-- The inputs at the next edge: those the host will drive, all 0 when it has nothing more to drive (log entry 2). -/
def nextInputs (s : State) : Inputs s.params.W := s.pending.headD (idleInputs s.params.W)

end Sys2Proof.Machine
end

