-- ==== Sys2Proof/Machine/HostActions.lean ====
section
/-! DEFINITION. The host as an agent (00_scope.md R16): its actions as the edges it drives (30_encoding.md R84 to R87). -/

namespace Sys2Proof.Machine

/-- An edge with the given `out_ready` inputs and nothing offered. -/
def quietEdge (W : Nat) (encReady decReady : Bool) : Inputs W :=
  { idleInputs W with encOutReady := encReady, decOutReady := decReady }

/-- An edge that offers the symbol `sym` on `dec_in`. -/
def symbolEdge (W : Nat) (encReady decReady : Bool) (sym : BitVec 2) : Inputs W :=
  { quietEdge W encReady decReady with decInValid := true, decInSym := sym }

/-- R84: an edge that offers the operation `i` on its channel, and nothing on the other. -/
def transferEdge (W : Nat) (encReady decReady : Bool) : Instr → Inputs W
  | .enc _ d => { quietEdge W encReady decReady with encInValid := true, encInData := d.setWidth W }
  | .dbit0 => symbolEdge W encReady decReady 0b00
  | .dbit1 => symbolEdge W encReady decReady 0b01
  | .dend => symbolEdge W encReady decReady 0b10
  | .drsv => symbolEdge W encReady decReady 0b11

/-- An edge that offers the operation `i` and takes the record its own unit holds, so that the unit accepts it (R53); the
other unit's channels are idle. -/
def ownTransferEdge (W : Nat) : Instr → Inputs W
  | .enc w d => transferEdge W true false (.enc w d)
  | .dbit0 => transferEdge W false true .dbit0
  | .dbit1 => transferEdge W false true .dbit1
  | .dend => transferEdge W false true .dend
  | .drsv => transferEdge W false true .drsv

/-- R85: what a program of the host is made of. -/
inductive HostAction where
  | transfer (i : Instr)
  | idle
  | reset
  | stallE
  | stallD
  | takeE
  | takeD
deriving DecidableEq, Repr

/-- The operation that an action transfers, if it is a transfer (R84). -/
def HostAction.op : HostAction → Option Instr
  | .transfer i => some i
  | .idle => none
  | .reset => none
  | .stallE => none
  | .stallD => none
  | .takeE => none
  | .takeD => none

/-- What a program keeps from one edge to the next: its `out_ready` inputs, and for each input channel the payloads it has
come to that the unit has not accepted yet, the one on offer first. -/
structure HostState (W : Nat) where
  encReady : Bool
  decReady : Bool
  encOffers : List (BitVec W)
  decOffers : List (BitVec 2)
deriving DecidableEq, Repr

/-- R85: a program starts with both `out_ready` inputs at 1 and nothing on offer. -/
def HostState.start (W : Nat) : HostState W := ⟨true, true, [], []⟩

/-- The program comes to the operation `i`: its payload is offered after those of its channel that still wait. -/
def HostState.offer {W : Nat} (h : HostState W) : Instr → HostState W
  | .enc _ d => { h with encOffers := h.encOffers ++ [d.setWidth W] }
  | .dbit0 => { h with decOffers := h.decOffers ++ [0b00] }
  | .dbit1 => { h with decOffers := h.decOffers ++ [0b01] }
  | .dend => { h with decOffers := h.decOffers ++ [0b10] }
  | .drsv => { h with decOffers := h.decOffers ++ [0b11] }

/-- An edge with nothing offered. -/
def HostState.quiet {W : Nat} (h : HostState W) : Inputs W := quietEdge W h.encReady h.decReady

/-- An edge that offers the first payload of each channel, where there is one. -/
def HostState.offering {W : Nat} (h : HostState W) : Inputs W :=
  { h.quiet with
    encInValid := !h.encOffers.isEmpty
    encInData := h.encOffers.headD 0
    decInValid := !h.decOffers.isEmpty
    decInSym := h.decOffers.headD 0 }

/-- R231: a payload counts as transferred, and its offer ends, exactly at an edge at which the unit accepts it. -/
def HostState.after {W : Nat} (h : HostState W) (i : Inputs W) (s : State) : HostState W :=
  { h with
    encOffers := if inFire i.rst i.encInValid s.enc.out.ov i.encOutReady then h.encOffers.tail else h.encOffers
    decOffers := if inFire i.rst i.decInValid s.dec.out.ov i.decOutReady then h.decOffers.tail else h.decOffers }

/-- R85: one action, and the edge it drives. `STALL_*` is no edge (log entry 5, DEDUCED): it holds `out_ready` at 0 until
the matching `TAKE_*`, which is one edge that raises it again and offers what still waits, as edge 3 of the trace in
95_test_vectors.md section 2.5 does. What `IDLE` and `RESET` do with an offer that still waits is a DESIGN CHOICE (log
entry 16): it pauses for that edge. -/
def HostState.act {W : Nat} (h : HostState W) : HostAction → HostState W × Option (Inputs W)
  | .transfer i => (h.offer i, some (h.offer i).offering)
  | .idle => (h, some h.quiet)
  | .reset => (h, some { h.quiet with rst := true })
  | .stallE => ({ h with encReady := false }, none)
  | .stallD => ({ h with decReady := false }, none)
  | .takeE => ({ h with encReady := true }, some { h with encReady := true }.offering)
  | .takeD => ({ h with decReady := true }, some { h with decReady := true }.offering)

/-- `n` more edges that offer what still waits. -/
def waitEdges {W : Nat} : Nat → HostState W → State → List (Inputs W)
  | 0, _, _ => []
  | n + 1, h, s =>
    h.offering :: match edge h.offering s with
      | .next t => waitEdges n (h.after h.offering s) t
      | .fault _ => []
      | .refused _ => []

/-- R84, R85: the edges of the rest of a program on the machine `s`. Each operation is offered until its unit accepts it:
a line of a program is one transfer (R84). At the end one more edge follows for each offer that still waits on the channel
with the most; with both `out_ready` inputs at 1 each of them accepts one on each channel. The last edge is a quiet one
with the `out_ready` inputs as they are: every record is taken at the edge after the one that loaded it (R85), the last
one too. -/
def edgesOf {W : Nat} (h : HostState W) (s : State) : List HostAction → List (Inputs W)
  | [] => waitEdges (max h.encOffers.length h.decOffers.length) h s ++ [h.quiet]
  | a :: as =>
    match h.act a with
    | (h', none) => edgesOf h' s as
    | (h', some i) =>
      i :: match edge i s with
        | .next t => edgesOf (h'.after i s) t as
        | .fault _ => []
        | .refused _ => []

/-- R85: the edges of a program that the host starts on the machine `s`. -/
def programEdges (s : State) (as : List HostAction) : List (Inputs s.params.W) :=
  edgesOf (HostState.start s.params.W) s as

/-- R85: whether every `STALL_*` of a program has its matching `TAKE_*`, from the current `out_ready` inputs on. -/
def stallsMatched : Bool → Bool → List HostAction → Bool
  | er, dr, [] => er && dr
  | er, dr, .transfer _ :: as => stallsMatched er dr as
  | er, dr, .idle :: as => stallsMatched er dr as
  | er, dr, .reset :: as => stallsMatched er dr as
  | _, dr, .stallE :: as => stallsMatched false dr as
  | er, _, .stallD :: as => stallsMatched er false as
  | _, dr, .takeE :: as => stallsMatched true dr as
  | er, _, .takeD :: as => stallsMatched er true as

/-- Whether an operation is a symbol of `dec_in` (R73). -/
def isSymbol : Instr → Bool
  | .enc _ _ => false
  | .dbit0 => true
  | .dbit1 => true
  | .dend => true
  | .drsv => true

/-- The operation of one bit of a stream (R87). -/
def bitInstr (b : Bool) : Instr := if b then .dbit1 else .dbit0

/-- R87: `DECODE "b"`: one symbol per bit, then `DEND`. -/
def decodeInstrs (b : BitString) : List Instr := b.map bitInstr ++ [.dend]

/-- R84: `ENC x` for an integer `x`, as a `W`-bit two's-complement word. An integer that has no such word (8 at `W = 4`) is
taken modulo `2^W`. DESIGN CHOICE (log entry 17): the notation does not say which word it means. -/
def encInstr (W : Nat) (x : Int) : Instr := .enc W (BitVec.ofInt W x)

/-- R86: `ENCSEQ x1, ..., xk`. -/
def encseqInstrs (W : Nat) (xs : List Int) : List Instr := xs.map (encInstr W)

/-- R85: the edges of the program that transfers a list of operations with no stall, written out: one for each, and the
last, quiet edge that takes the last record. -/
def runEdges (W : Nat) (is : List Instr) : List (Inputs W) :=
  is.map (transferEdge W true true) ++ [quietEdge W true true]

end Sys2Proof.Machine
end

