-- ==== Sys2Proof/Machine/Step.lean ====
section
/-! DEFINITION. One step of the machine is one rising edge of `clk` (00_scope.md R13). The block fetches nothing
(20_memory.md R67): what a step runs is what the host transfers at that edge. -/

namespace Sys2Proof.Machine

/-- One edge, with the inputs that the host drives next. -/
def step (s : State) : Host.Outcome State Fault Refusal :=
  edge (nextInputs s) (s.setPending s.pending.tail)

/-- `s` with the host about to transfer the operation that the table's number `w` stands for: one edge that
transfers it (and takes the record its unit may still hold, without which the unit accepts nothing), before the edges
already to come. A number that stands for no payload leaves `s` as it is. Log entry 4. -/
def State.withFetchWord (s : State) (nbits w : Nat) : State :=
  match decodeTableWordAt s.params.W nbits w with
  | some i => s.setPending (ownTransferEdge s.params.W i :: s.pending)
  | none => s

end Sys2Proof.Machine
end

