-- ==== Sys2Proof/Machine/Ports.lean ====
section
/-! DEFINITION. The output ports (10_state.md R22, R23) as functions of the state and the inputs (R25, R32). -/

namespace Sys2Proof.Machine

open Sys2Proof.Config

/-- R22, R23: the output ports at one edge, as the wires carry them. -/
structure Outputs (W : Nat) where
  encInReady : Bool
  encOutValid : Bool
  encOutStatus : BitVec 3
  encOutN : BitVec (NW W)
  encOutLen : BitVec (LENW W)
  encOutCode : BitVec (CW W)
  decInReady : Bool
  decOutValid : Bool
  decOutKind : BitVec 1
  decOutStatus : BitVec 3
  decOutData : BitVec W
deriving DecidableEq, Repr

/-- R25, R32: the output ports in state `s` under the inputs `i`. -/
def outputs (s : State) (i : Inputs s.params.W) : Outputs s.params.W :=
  { encInReady := inReady i.rst s.enc.out.ov i.encOutReady
    encOutValid := s.enc.out.ov
    encOutStatus := s.enc.out.held.status.code
    encOutN := s.enc.out.held.n
    encOutLen := s.enc.out.held.len
    encOutCode := s.enc.out.held.code
    decInReady := inReady i.rst s.dec.out.ov i.decOutReady
    decOutValid := s.dec.out.ov
    decOutKind := s.dec.out.held.kind.code
    decOutStatus := s.dec.out.held.status.code
    decOutData := s.dec.out.held.data }

end Sys2Proof.Machine
end

