-- ==== Sys2Proof/Machine/Reference.lean ====
section
/-! DEFINITION. The spec's reference functions over bit strings and unbounded integers (00_scope.md R14): `encode_number`
(40_encoder.md R117), `encode_sequence` (R120), `decode` (41_decoder.md R165), and the decoder's whole state-by-symbol
table (R158) over numbers. The meanings use none of these: statements hold the machine against them. -/

namespace Sys2Proof.Machine

open Sys2Proof.Config

/-- R10: `val(b)`, the first bit most significant. -/
def val (b : BitString) : Nat := b.foldl (fun a c => 2 * a + c.toNat) 0

/-- The `n` low-order bits of `x`, most significant first. -/
def lowBits (n x : Nat) : BitString := (List.range n).reverse.map x.testBit

/-- R10: `bin(x)`, the binary form of `x >= 1`, most-significant bit first. -/
def bin (x : Nat) : BitString := lowBits (bitlen x) x

/-- R78: `offset(x)`, the `bitlen(x) - 1` low-order bits of `bin(x)`. -/
def offsetString (x : Nat) : BitString := (bin x).drop 1

/-- R78: the gamma code of `x >= 1`: `0^(N-1) ++ "1" ++ offset(x)` with `N = bitlen(x)`. -/
def gammaCode (x : Nat) : BitString :=
  List.replicate (bitlen x - 1) false ++ [true] ++ offsetString x

/-- R117: `encode_number`. -/
def encodeNumber (x : Int) : Except Status BitString :=
  if x ≤ 0 then .error .invalidInput
  else .ok (List.replicate (bitlen x.toNat - 1) false ++ bin x.toNat)

/-- R120: `encode_sequence`, all or nothing (90_conflicts.md C6). -/
def encodeSequence (xs : List Int) : Except Status BitString :=
  if xs.any (fun x => decide (x ≤ 0)) then .error .invalidInput
  else .ok (xs.flatMap fun x => List.replicate (bitlen x.toNat - 1) false ++ bin x.toNat)

/-- The number of consecutive 0 bits at the start of `b`, up to the next 1 or the end (R165, `z(p)` of R167). -/
def leadingZeros : BitString → Nat
  | false :: b => leadingZeros b + 1
  | true :: _ => 0
  | [] => 0

/-- R165: the `while` loop of `decode` on what is left of the bits, at a code boundary. Each turn takes at least one bit,
so as many turns as there are bits are enough. -/
def decodeLoop : Nat → BitString → Except Status (List Nat)
  | _, [] => .ok []
  | 0, _ :: _ => .ok []
  | turns + 1, b@(_ :: _) =>
    let L := leadingZeros b
    match b.drop L with
    | [] => .error .prefixCutoff
    | _ :: t =>
      if t.length < L then .error .offsetCutoff
      else (decodeLoop turns (t.drop L)).map ((2 ^ L + val (t.take L)) :: ·)

/-- R165: the reference `decode`. -/
def refDecode (b : BitString) : Except Status (List Nat) := decodeLoop b.length b

/-- R167: what is left of the bits at each code boundary that `decodeLoop` reaches. -/
def boundariesLoop : Nat → BitString → List BitString
  | _, [] => [[]]
  | 0, _ :: _ => []
  | turns + 1, b@(_ :: _) =>
    b :: match b.drop (leadingZeros b) with
      | [] => []
      | _ :: t => if t.length < leadingZeros b then [] else boundariesLoop turns (t.drop (leadingZeros b))

/-- R167: what is left of `b` at each code boundary that `decode(b)` reaches, the whole of `b` first. -/
def codeBoundaries (b : BitString) : List BitString := boundariesLoop b.length b

/-- A decoder record as a host reads it: the integer of a VALUE record, the outcome of a DONE record (R74). -/
inductive DecRecord where
  | value (x : Nat)
  | done (outcome : Status)
deriving DecidableEq, Repr

/-- The decoder's FSM fields as numbers (R30). -/
structure FsmView where
  fs : Fs
  cnt : Nat
  acc : Nat
  err : Status
deriving DecidableEq, Repr

/-- R149: the FSM fields at a frame boundary. -/
def FsmView.atBoundary : FsmView := ⟨.scanPrefix, 0, 0, .ok⟩

/-- R158: the rows of READ_OFFSET for the bit `b`. -/
def tableOffsetBit (v : FsmView) (b : Bool) : FsmView × Option DecRecord :=
  if v.cnt = 1 then (⟨.scanPrefix, 0, 0, .ok⟩, some (.value (2 * v.acc + b.toNat)))
  else (⟨.readOffset, v.cnt - 1, 2 * v.acc + b.toNat, .ok⟩, none)

/-- R158: the row of the table for the FSM fields `v` and one symbol: the next fields and the record. -/
def fsmTable (lmax : Nat) (v : FsmView) (sym : Instr) : FsmView × Option DecRecord :=
  match v.fs, sym with
  | _, .enc _ _ => (v, none)
  | .scanPrefix, .dbit0 =>
    if v.cnt = lmax then (⟨.drain, 0, 0, .valueOverflow⟩, none) else (⟨.scanPrefix, v.cnt + 1, 0, .ok⟩, none)
  | .scanPrefix, .dbit1 =>
    if v.cnt = 0 then (⟨.scanPrefix, 0, 0, .ok⟩, some (.value 1)) else (⟨.readOffset, v.cnt, 1, .ok⟩, none)
  | .scanPrefix, .dend =>
    (⟨.scanPrefix, 0, 0, .ok⟩, some (.done (if v.cnt = 0 then .ok else .prefixCutoff)))
  | .scanPrefix, .drsv => (⟨.drain, 0, 0, .illegalSymbol⟩, none)
  | .readOffset, .dbit0 => tableOffsetBit v false
  | .readOffset, .dbit1 => tableOffsetBit v true
  | .readOffset, .dend => (⟨.scanPrefix, 0, 0, .ok⟩, some (.done .offsetCutoff))
  | .readOffset, .drsv => (⟨.drain, 0, 0, .illegalSymbol⟩, none)
  | .drain, .dbit0 => (⟨.drain, 0, 0, v.err⟩, none)
  | .drain, .dbit1 => (⟨.drain, 0, 0, v.err⟩, none)
  | .drain, .drsv => (⟨.drain, 0, 0, v.err⟩, none)
  | .drain, .dend => (⟨.scanPrefix, 0, 0, .ok⟩, some (.done v.err))

/-- R158 along a list of symbols: the fields at the end, and the records in order. -/
def fsmRun (lmax : Nat) : FsmView → List Instr → FsmView × List DecRecord
  | v, [] => (v, [])
  | v, sym :: syms =>
    let r := fsmTable lmax v sym
    let rest := fsmRun lmax r.1 syms
    (rest.1, r.2.toList ++ rest.2)

end Sys2Proof.Machine
end

