-- ==== Sys2Proof/Machine/Observe.lean ====
section
/-! DEFINITION. What a host sees of a run: the transfers on the four channels (20_memory.md R51, R52), and the results it
makes of them (20_memory.md R58, 30_encoding.md R86, R87, 40_encoder.md R121, 41_decoder.md R166). -/

namespace Sys2Proof.Machine

open Sys2Proof.Config

/-- An encoder response as a host reads it (R72). -/
structure EncRecord where
  status : Status
  n : Nat
  len : Nat
  code : Nat
deriving DecidableEq, Repr

/-- R72: a response as a host reads it. -/
def encRecordOf {W : Nat} (r : Response W) : EncRecord := ⟨r.status, r.n.toNat, r.len.toNat, r.code.toNat⟩

/-- R74: a record as a host reads it: `kind` says which of the other fields carries something. -/
def decRecordOf {W : Nat} (r : Record W) : DecRecord :=
  match r.kind with
  | .value => .value r.data.toNat
  | .done => .done r.status

/-- The record that an output register offers, if any. -/
def offered {α : Type} (r : OutReg α) : Option α := if r.ov then some r.held else none

/-- The decoder's FSM fields as numbers. -/
def fsmView {W : Nat} (D : Decoder W) : FsmView := ⟨D.fs, D.cnt.toNat, D.acc.toNat, D.err⟩

/-- The transfers of one edge, one field per channel (R51): the word accepted, the response taken, the symbol accepted,
the record taken. -/
structure Transfers where
  encIn : Option Nat
  encOut : Option EncRecord
  decIn : Option Instr
  decOut : Option DecRecord
deriving DecidableEq, Repr

/-- R52: the transfers that the next edge makes. -/
def nextTransfers (s : State) : Transfers :=
  let i := nextInputs s
  { encIn := if inFire i.rst i.encInValid s.enc.out.ov i.encOutReady then some i.encInData.toNat else none
    encOut := if outFire i.rst s.enc.out.ov i.encOutReady then some (encRecordOf s.enc.out.held) else none
    decIn := if inFire i.rst i.decInValid s.dec.out.ov i.decOutReady then some (decodeSym i.decInSym) else none
    decOut := if outFire i.rst s.dec.out.ov i.decOutReady then some (decRecordOf s.dec.out.held) else none }

/-- The transfers of `k` steps, in order, as far as the machine goes. -/
def trace : Nat → State → List Transfers
  | 0, _ => []
  | k + 1, s =>
    match step s with
    | .next t => nextTransfers s :: trace k t
    | .fault _ => []
    | .refused _ => []

/-- The words accepted on `enc_in`. -/
def encIns (t : List Transfers) : List Nat := t.filterMap (·.encIn)
/-- The responses taken on `enc_out`. -/
def encOuts (t : List Transfers) : List EncRecord := t.filterMap (·.encOut)
/-- The symbols accepted on `dec_in`. -/
def decIns (t : List Transfers) : List Instr := t.filterMap (·.decIn)
/-- The records taken on `dec_out`. -/
def decOuts (t : List Transfers) : List DecRecord := t.filterMap (·.decOut)

/-- R58: an OK response as the bits the host sends, from bit `len - 1` of `code` down to bit 0. -/
def serialise (r : EncRecord) : BitString := (List.range r.len).reverse.map r.code.testBit

/-- R86, R121: what the host makes of the responses to an `ENCSEQ`. -/
def sequenceResult (rs : List EncRecord) : Except Status BitString :=
  if rs.any (fun r => decide (r.status = .invalidInput)) then .error .invalidInput
  else .ok (rs.flatMap serialise)

/-- R87, R166: what the host makes of the records of a frame: the values under DONE OK, else the error. Without a DONE
record there is no result (R233). -/
def frameResult : List DecRecord → Option (Except Status (List Nat))
  | [] => none
  | .done outcome :: _ => some (if outcome = .ok then .ok [] else .error outcome)
  | .value x :: rs => (frameResult rs).map fun r => r.map (x :: ·)

/-- The encoder's input ports of an edge, with the reset both units share (R21, R22). -/
def encPorts {W : Nat} (i : Inputs W) : Bool × Bool × BitVec W × Bool := (i.rst, i.encInValid, i.encInData, i.encOutReady)

/-- The decoder's input ports of an edge, with the reset both units share (R21, R23). -/
def decPorts {W : Nat} (i : Inputs W) : Bool × Bool × BitVec 2 × Bool := (i.rst, i.decInValid, i.decInSym, i.decOutReady)

/-- The records that an output register offers, none or one, as a host reads them. -/
def heldRecords {W : Nat} (r : OutReg (Record W)) : List DecRecord := (offered r).toList.map decRecordOf

/-- The responses that an output register offers, none or one, as a host reads them. -/
def heldResponses {W : Nat} (r : OutReg (Response W)) : List EncRecord := (offered r).toList.map encRecordOf

/-- The transfers when the host runs the operations `is` on the machine `s` with no stall (R85), the last record taken. -/
def runInstrs (s : State) (is : List Instr) : List Transfers :=
  trace (is.length + 1) (s.setPending (runEdges s.params.W is))

/-- The transfers when the host runs a program, stalls and all, on the machine `s` (R85). -/
def programTransfers (s : State) (as : List HostAction) : List Transfers :=
  trace (programEdges s as).length (s.setPending (programEdges s as))

/-- R63: the responses to the words of a run. A response that `s` still holds comes first of those taken, and belongs to an
earlier word. -/
def ownResponses (s : State) (is : List Instr) : List EncRecord :=
  (encOuts (runInstrs s is)).drop (heldResponses s.enc.out).length

/-- R63: the records of the symbols of a run. A record that `s` still holds comes first of those taken, and belongs to an
earlier symbol. -/
def ownRecords (s : State) (is : List Instr) : List DecRecord :=
  (decOuts (runInstrs s is)).drop (heldRecords s.dec.out).length

/-- R86, R121: the result of `ENCSEQ xs` on the encoder of `s`, from the responses to its `k` words. -/
def hwEncodeSequence (s : State) (xs : List Int) : Except Status BitString :=
  sequenceResult (ownResponses s (encseqInstrs s.params.W xs))

/-- R87, R166: the result of `DECODE "b"` on the decoder of `s`, from the records of its frame. -/
def hwDecode (s : State) (b : BitString) : Option (Except Status (List Nat)) :=
  frameResult (ownRecords s (decodeInstrs b))

/-- R149, R154: `s` is at a frame boundary of the decoder. Either unit may still hold an earlier record. -/
def atFrameBoundary (s : State) : Prop := fsmView s.dec = .atBoundary

end Sys2Proof.Machine
end

