-- ==== Sys2Proof/Safety.lean ====
section
/-! DEFINITION. The states a run can be in (10_state.md R33), and what a safe run is. -/

namespace Sys2Proof.Machine

open Sys2Proof.Config

/-- R33: what holds of the decoder in every state reachable from reset. Clause 1, `D.fs != 11`, holds by the type of
`fs` (D29). In clause 3 `L` is the zero count of the code being read, which no field holds any more, and
`k = L - D.cnt` the offset bits read so far. -/
structure DecoderInv {W : Nat} (D : Decoder W) : Prop where
  scan : D.fs = .scanPrefix → D.err = .ok ∧ D.acc.toNat = 0 ∧ D.cnt.toNat ≤ LMAX W
  read : D.fs = .readOffset → D.err = .ok ∧ 1 ≤ D.cnt.toNat ∧ D.cnt.toNat ≤ LMAX W ∧ 1 ≤ D.acc.toNat ∧
    ∃ L, D.cnt.toNat ≤ L ∧ L ≤ LMAX W ∧
      2 ^ (L - D.cnt.toNat) ≤ D.acc.toNat ∧ D.acc.toNat < 2 ^ (L - D.cnt.toNat + 1)
  drain : D.fs = .drain → (D.err = .valueOverflow ∨ D.err = .illegalSymbol) ∧ D.cnt.toNat = 0 ∧ D.acc.toNat = 0
  value : D.out.ov = true → D.out.held.kind = .value →
    D.out.held.status = .ok ∧ 1 ≤ D.out.held.data.toNat ∧ D.out.held.data.toNat ≤ XMAX W
  done : D.out.ov = true → D.out.held.kind = .done →
    D.out.held.data.toNat = 0 ∧ D.out.held.status ≠ .invalidInput

/-- R72, R75: what holds of a response the encoder holds: an OK response with the fields in their ranges, or an error
response of zeros. -/
structure EncoderInv {W : Nat} (E : Encoder W) : Prop where
  kind : E.out.ov = true → E.out.held.status = .ok ∨ E.out.held.status = .invalidInput
  ok : E.out.ov = true → E.out.held.status = .ok →
    1 ≤ E.out.held.n.toNat ∧ E.out.held.n.toNat ≤ NMAX W ∧
    E.out.held.len.toNat = 2 * E.out.held.n.toNat - 1 ∧
    2 ^ (E.out.held.n.toNat - 1) ≤ E.out.held.code.toNat ∧ E.out.held.code.toNat < 2 ^ E.out.held.n.toNat
  invalid : E.out.ov = true → E.out.held.status = .invalidInput →
    E.out.held.n.toNat = 0 ∧ E.out.held.len.toNat = 0 ∧ E.out.held.code.toNat = 0

/-- What holds of the machine in every state reachable from reset. -/
structure Inv (s : State) : Prop where
  dec : DecoderInv s.dec
  enc : EncoderInv s.enc

/-- A safe run of `k` steps: no step of it stops. -/
def SafeFor (s : State) (k : Nat) : Prop := ∃ t, Sys2Proof.core.run k s = .next t

end Sys2Proof.Machine
end

