-- ==== Sys2Proof/Certificates/Slice0/Obligations.lean ====
section
/-! DEFINITION. The statements about the block, for the provers. Each holds for every instance: `s.params.W` is the
width `W` of the instance that `s` is a state of, and nothing rests on the width of the shown instance (log entry 1). -/

open Sys2Proof Sys2Proof.Machine Sys2Proof.Config

/-! ## Encodings -/

/-- R73, R83: which operation each payload selects. -/
def Obligations.PayloadsSelectOperations : Prop :=
  ∀ W : Nat,
    (∀ d : BitVec W, decode W ⟨.encIn, W, d⟩ = .ok (.enc W d)) ∧
    decode W ⟨.decIn, 2, 0b00#2⟩ = .ok .dbit0 ∧
    decode W ⟨.decIn, 2, 0b01#2⟩ = .ok .dbit1 ∧
    decode W ⟨.decIn, 2, 0b10#2⟩ = .ok .dend ∧
    decode W ⟨.decIn, 2, 0b11#2⟩ = .ok .drsv

/-- Decode and encode agree in both directions, at every operand. -/
def Obligations.DecodeEncodeAgree : Prop :=
  ∀ W : Nat,
    (∀ i : Instr, wellFormed W i = true → decode W (encode i) = .ok i) ∧
    (∀ (p : Payload) (i : Instr), decode W p = .ok i → encode i = p ∧ wellFormed W i = true)

/-- R78: the offset of `x` is the `N - 1` low-order bits of its binary form, which is a 1 and the offset; so the code of
`x`, which `gammaCode` writes as the rule does, is its zeros and its binary form, `2N - 1` bits. -/
def Obligations.GammaCodeIsZerosThenBinary : Prop :=
  ∀ x : Nat, 1 ≤ x →
    offsetString x = lowBits (bitlen x - 1) x ∧
    bin x = [true] ++ offsetString x ∧
    gammaCode x = List.replicate (bitlen x - 1) false ++ bin x ∧
    (gammaCode x).length = 2 * bitlen x - 1

/-- R80: no codeword is a prefix of another, so a concatenation of codes splits in one way. -/
def Obligations.GammaCodeIsPrefixFree : Prop :=
  (∀ x y : Nat, 1 ≤ x → 1 ≤ y → gammaCode x <+: gammaCode y → x = y) ∧
  (∀ xs ys : List Nat, (∀ x ∈ xs, 1 ≤ x) → (∀ y ∈ ys, 1 ≤ y) →
    xs.flatMap gammaCode = ys.flatMap gammaCode → xs = ys)

/-- R81: the complete codes are the strings `0^L ++ "1" ++ t` with `|t| = L`, each the code of one integer. -/
def Obligations.CompleteCodeForm : Prop :=
  (∀ b : BitString, (∃ x, 1 ≤ x ∧ gammaCode x = b) ↔
    ∃ L t, b = List.replicate L false ++ [true] ++ t ∧ t.length = L) ∧
  (∀ t : BitString,
    gammaCode (2 ^ t.length + val t) = List.replicate t.length false ++ [true] ++ t ∧
    bitlen (2 ^ t.length + val t) = t.length + 1 ∧
    ∀ x, 1 ≤ x → gammaCode x = List.replicate t.length false ++ [true] ++ t → x = 2 ^ t.length + val t)

/-! ## Reset -/

/-- R220: an edge with `rst == 1` puts every field of both units at its reset value, and transfers nothing. -/
def Obligations.ResetEdge : Prop :=
  ∀ s : State, (nextInputs s).rst = true →
    nextTransfers s = ⟨none, none, none, none⟩ ∧
    ∃ (e : Encoder s.params.W) (d : Decoder s.params.W),
      step s = .next { s with enc := e, dec := d, pending := s.pending.tail } ∧
      e.out.ov = false ∧ e.out.held.status = .ok ∧ e.out.held.n = 0 ∧ e.out.held.len = 0 ∧ e.out.held.code = 0 ∧
      d.fs = .scanPrefix ∧ d.cnt = 0 ∧ d.acc = 0 ∧ d.err = .ok ∧
      d.out.ov = false ∧ d.out.held.kind = .value ∧ d.out.held.status = .ok ∧ d.out.held.data = 0

/-- R221: while `rst == 1` both `ready` outputs are 0, and after the first such edge both `valid` outputs are 0. -/
def Obligations.ResetHoldsReadyLow : Prop :=
  ∀ (p : Params) (e : Encoder p.W) (d : Decoder p.W) (i : Inputs p.W) (l : List (Inputs p.W)), i.rst = true →
    (outputs ⟨p, e, d, i :: l⟩ i).encInReady = false ∧ (outputs ⟨p, e, d, i :: l⟩ i).decInReady = false ∧
    ∃ (e' : Encoder p.W) (d' : Decoder p.W), step ⟨p, e, d, i :: l⟩ = .next ⟨p, e', d', l⟩ ∧
      ∀ j : Inputs p.W,
        (outputs ⟨p, e', d', l⟩ j).encOutValid = false ∧ (outputs ⟨p, e', d', l⟩ j).decOutValid = false

/-- R222: a reset in the middle of work loses the records not taken and the frame in progress: nothing that happens from
the reset edge on depends on what either unit held before. -/
def Obligations.ResetForgetsEarlierWork : Prop :=
  ∀ (p : Params) (e e' : Encoder p.W) (d d' : Decoder p.W) (i : Inputs p.W) (l : List (Inputs p.W)) (k : Nat),
    i.rst = true →
    trace k ⟨p, e, d, i :: l⟩ = trace k ⟨p, e', d', i :: l⟩ ∧
    trace (k + 1) ⟨p, e, d, i :: l⟩ = ⟨none, none, none, none⟩ :: trace k { State.resetOf p with pending := l }

/-! ## Steps, transfers and output registers -/

/-- A step runs the operation whose payload is transferred at the edge, on the state with that edge taken off the host's
list: the decoder's, the encoder's, or both, the units being independent (R16). A unit that transfers nothing in does
its own part of the edge (`encEdge`, `decEdge`), which is nothing at all when its output channel does not transfer
either. -/
def Obligations.StepRunsTransferredOperation : Prop :=
  ∀ (p : Params) (e : Encoder p.W) (d : Decoder p.W) (i : Inputs p.W) (l : List (Inputs p.W)) (op : Instr),
    i.rst = false →
    (inFire i.rst i.decInValid d.out.ov i.decOutReady = true → decode p.W ⟨.decIn, 2, i.decInSym⟩ = .ok op →
      step ⟨p, e, d, i :: l⟩ = andThen (encEdge i ⟨p, e, d, l⟩) (exec op) ∧
      (inFire i.rst i.encInValid e.out.ov i.encOutReady = false → outFire i.rst e.out.ov i.encOutReady = false →
        step ⟨p, e, d, i :: l⟩ = exec op ⟨p, e, d, l⟩)) ∧
    (inFire i.rst i.encInValid e.out.ov i.encOutReady = true → decode p.W ⟨.encIn, p.W, i.encInData⟩ = .ok op →
      step ⟨p, e, d, i :: l⟩ = andThen (exec op ⟨p, e, d, l⟩) (decEdge i) ∧
      (inFire i.rst i.decInValid d.out.ov i.decOutReady = false → outFire i.rst d.out.ov i.decOutReady = false →
        step ⟨p, e, d, i :: l⟩ = exec op ⟨p, e, d, l⟩))

/-- The operation that `withFetchWord` places is the one the very next step runs, on the state as it was. -/
def Obligations.PlacedOperationRunsNext : Prop :=
  ∀ (s : State) (nbits w : Nat) (op : Instr), decodeTableWordAt s.params.W nbits w = some op →
    step (s.withFetchWord nbits w) = exec op s

/-- R53, R52: the input is ready exactly when `rst == 0` and the output register is empty or is being emptied; that is the
only way an input port reaches an output port within an edge; and a channel transfers, once, exactly when `rst == 0` and
its `valid` and `ready` are both 1. -/
def Obligations.TransfersNeedValidAndReady : Prop :=
  ∀ s : State,
    let i := nextInputs s
    let o := outputs s i
    let t := nextTransfers s
    (o.encInReady = true ↔ i.rst = false ∧ (o.encOutValid = false ∨ i.encOutReady = true)) ∧
    (o.decInReady = true ↔ i.rst = false ∧ (o.decOutValid = false ∨ i.decOutReady = true)) ∧
    (∀ j : Inputs s.params.W,
      { outputs s j with encInReady := o.encInReady, decInReady := o.decInReady } = o ∧
      (j.rst = i.rst → j.encOutReady = i.encOutReady → (outputs s j).encInReady = o.encInReady) ∧
      (j.rst = i.rst → j.decOutReady = i.decOutReady → (outputs s j).decInReady = o.decInReady)) ∧
    (t.encIn.isSome = true ↔ i.rst = false ∧ i.encInValid = true ∧ o.encInReady = true) ∧
    (t.encOut.isSome = true ↔ i.rst = false ∧ o.encOutValid = true ∧ i.encOutReady = true) ∧
    (t.decIn.isSome = true ↔ i.rst = false ∧ i.decInValid = true ∧ o.decInReady = true) ∧
    (t.decOut.isSome = true ↔ i.rst = false ∧ o.decOutValid = true ∧ i.decOutReady = true)

/-- R52: a payload is sampled at a transfer only: two edges that differ only in payloads that are not transferred do
the same. -/
def Obligations.PayloadsAreSampledOnlyAtTransfers : Prop :=
  ∀ (p : Params) (e : Encoder p.W) (d : Decoder p.W) (i : Inputs p.W) (l : List (Inputs p.W)) (x : BitVec p.W)
    (y : BitVec 2),
    (inFire i.rst i.encInValid e.out.ov i.encOutReady = false →
      step ⟨p, e, d, { i with encInData := x } :: l⟩ = step ⟨p, e, d, i :: l⟩) ∧
    (inFire i.rst i.decInValid d.out.ov i.decOutReady = false →
      step ⟨p, e, d, { i with decInSym := y } :: l⟩ = step ⟨p, e, d, i :: l⟩)

/-- R54: the output register of each unit at every edge with `rst == 0`. The encoder's operation emits at every transfer
(R100); whether the decoder's emits is the row of R158 for its state and symbol. A transfer that emits nothing, with no
output transfer, finds the register empty and leaves it empty. -/
def Obligations.OutputRegisterUpdate : Prop :=
  ∀ s : State, (nextInputs s).rst = false →
    ∃ (e : Encoder s.params.W) (d : Decoder s.params.W),
      step s = .next { s with enc := e, dec := d, pending := s.pending.tail } ∧
      (match (nextTransfers s).encIn with
        | some _ => e.out.ov = true ∧ e.out.held = responseTo (nextInputs s).encInData
        | none =>
          if (nextTransfers s).encOut.isSome then e.out = { s.enc.out with ov := false } else e.out = s.enc.out) ∧
      (match (nextTransfers s).decIn.bind fun sym => (fsmTable (LMAX s.params.W) (fsmView s.dec) sym).2 with
        | some r => d.out.ov = true ∧ decRecordOf d.out.held = r
        | none =>
          if (nextTransfers s).decOut.isSome then d.out = { s.dec.out with ov := false } else d.out = s.dec.out) ∧
      ((nextTransfers s).decIn.isSome = true → (nextTransfers s).decOut = none →
        s.dec.out.ov = false ∧
        ((∀ sym ∈ (nextTransfers s).decIn, (fsmTable (LMAX s.params.W) (fsmView s.dec) sym).2 = none) →
          d.out.ov = false))

/-- R55, R53: while the host leaves `out_ready` at 0, a record not taken stays in the output register, the unit's input
stalls, and nothing of the unit changes. -/
def Obligations.StalledUnitKeepsItsRecord : Prop :=
  ∀ (s : State) (n : Nat), (∀ i ∈ s.pending.take n, i.rst = false) →
    (s.enc.out.ov = true → (∀ i ∈ s.pending.take n, i.encOutReady = false) →
      ∃ (d : Decoder s.params.W), Sys2Proof.core.run n s = .next { s with dec := d, pending := s.pending.drop n } ∧
        encIns (trace n s) = [] ∧ encOuts (trace n s) = []) ∧
    (s.dec.out.ov = true → (∀ i ∈ s.pending.take n, i.decOutReady = false) →
      ∃ (e : Encoder s.params.W), Sys2Proof.core.run n s = .next { s with enc := e, pending := s.pending.drop n } ∧
        decIns (trace n s) = [] ∧ decOuts (trace n s) = [])

/-- R36: without a transfer and without `rst` nothing changes. An edge the host has no inputs for is such an edge, which
is the model's choice (log entry 2). -/
def Obligations.QuietEdgeChangesNothing : Prop :=
  ∀ s : State, (nextInputs s).rst = false → nextTransfers s = ⟨none, none, none, none⟩ →
    step s = .next { s with pending := s.pending.tail }

/-- R203, R236: every state answers a next state at every edge, whatever the inputs, with the same `W` and the next edge
taken off the host's list. So no run of any length stops. -/
def Obligations.EveryRunGoesOn : Prop :=
  ∀ s : State,
    (∃ (e : Encoder s.params.W) (d : Decoder s.params.W),
      step s = .next { s with enc := e, dec := d, pending := s.pending.tail }) ∧
    ∀ k, SafeFor s k

/-- R236: an input the host keeps offering is accepted by the edge at which the host is ready for the record that the
unit holds, at the latest; at once when the unit holds none. -/
def Obligations.OfferedInputIsAccepted : Prop :=
  ∀ (s : State) (n : Nat) (i : Inputs s.params.W), s.pending[n]? = some i →
    (∀ j ∈ s.pending.take (n + 1), j.rst = false) →
    ((∀ j ∈ s.pending.take (n + 1), j.encInValid = true) → s.enc.out.ov = false ∨ i.encOutReady = true →
      encIns (trace (n + 1) s) ≠ []) ∧
    ((∀ j ∈ s.pending.take (n + 1), j.decInValid = true) → s.dec.out.ov = false ∨ i.decOutReady = true →
      decIns (trace (n + 1) s) ≠ [])

/-- R85, R240: a program with no stall transfers every operation, in order, one at each edge. -/
def Obligations.UnstalledProgramTransfersEveryOperation : Prop :=
  ∀ (s : State) (ops : List Instr), (∀ i ∈ ops, wellFormed s.params.W i = true) →
    (runInstrs s ops).length = ops.length + 1 ∧
    decIns (runInstrs s ops) = ops.filter isSymbol ∧
    encIns (runInstrs s ops) = ops.filterMap fun
      | .enc _ d => some d.toNat
      | .dbit0 | .dbit1 | .dend | .drsv => none

/-! ## The encoder -/

/-- R101: the validity check. -/
def Obligations.ValidInputIsPositive : Prop :=
  ∀ (p : Params) (d : BitVec p.W),
    (validInput d = true ↔ 1 ≤ d.toInt) ∧
    (validInput d = true ↔ d.getLsbD (p.W - 1) = false ∧ d ≠ 0) ∧
    (validInput d = true → (responseTo d).status = .ok) ∧
    (validInput d = false → responseTo d = ⟨.invalidInput, 0, 0, 0⟩)

/-- R102: the leading-one detector computes `bitlen(x)`, one more than the index of the most significant 1 bit. -/
def Obligations.WidthDetectorIsBitlen : Prop :=
  ∀ (p : Params) (d : BitVec p.W), 1 ≤ d.toInt →
    widthOf d = bitlen d.toInt.toNat ∧ widthOf d = Nat.log2 d.toInt.toNat + 1 ∧
    1 ≤ widthOf d ∧ widthOf d ≤ NMAX p.W ∧
    d.getLsbD (widthOf d - 1) = true ∧ ∀ i, widthOf d ≤ i → d.getLsbD i = false

/-- R107, with R104 and R106: `ENC d` in every state and for every word: it runs, its response is the one the rule gives,
and nothing else changes. -/
def Obligations.EncAnswersEveryWord : Prop :=
  ∀ (s : State) (d : BitVec s.params.W),
    (d.toInt ≤ 0 → exec (.enc s.params.W d) s = .next { s with enc := ⟨⟨true, ⟨.invalidInput, 0, 0, 0⟩⟩⟩ }) ∧
    (1 ≤ d.toInt → ∃ r : Response s.params.W,
      exec (.enc s.params.W d) s = .next { s with enc := ⟨⟨true, r⟩⟩ } ∧
      r.status = .ok ∧
      r.n.toNat = bitlen d.toInt.toNat ∧
      r.len.toNat = 2 * bitlen d.toInt.toNat - 1 ∧
      ∀ i, r.code.getLsbD i =
        (if i < bitlen d.toInt.toNat - 1 then d.getLsbD i else decide (i = bitlen d.toInt.toNat - 1)))

/-- The encoder has no operation for a word that is not as wide as its port: the model's refusal (log entry 6). -/
def Obligations.EncOfAnotherWidthIsRefused : Prop :=
  ∀ (w : Nat) (d : BitVec w) (s : State), w ≠ s.params.W → exec (.enc w d) s = .refused .wordNotPortWidth

/-- R108: for a valid input the code field, read as a number, is the input itself. -/
def Obligations.CodeFieldIsTheInput : Prop :=
  ∀ (p : Params) (d : BitVec p.W), 1 ≤ d.toInt →
    ((responseTo d).code.toNat : Int) = d.toInt ∧
    (∀ i, bitlen d.toInt.toNat ≤ i → (responseTo d).code.getLsbD i = false) ∧
    (responseTo d).code = (d.extractLsb' 0 (p.W - 1)).setWidth (CW p.W)

/-- R109: the code length is `2 * floor(log2(x)) + 1`, non-decreasing, and it changes only at powers of two. -/
def Obligations.CodeLengthLaw : Prop :=
  ∀ (p : Params) (d d' : BitVec p.W), 1 ≤ d.toInt → 1 ≤ d'.toInt →
    (responseTo d).len.toNat = 2 * Nat.log2 d.toInt.toNat + 1 ∧
    (d.toInt ≤ d'.toInt → (responseTo d).len.toNat ≤ (responseTo d').len.toNat) ∧
    (d'.toInt = d.toInt + 1 → (responseTo d).len ≠ (responseTo d').len → ∃ k, d'.toInt = 2 ^ k)

/-- R118: the response to a word, serialised, is what `encode_number` gives. -/
def Obligations.ResponseAgreesWithEncodeNumber : Prop :=
  ∀ (p : Params) (d : BitVec p.W),
    (d.toInt ≤ 0 → (responseTo d).status = .invalidInput ∧ encodeNumber d.toInt = .error .invalidInput) ∧
    (1 ≤ d.toInt → (responseTo d).status = .ok ∧
      encodeNumber d.toInt = .ok (serialise (encRecordOf (responseTo d)))) ∧
    d.toInt ≤ XMAX p.W ∧
    ∀ x : Int, XMAX p.W < x → ∃ b, encodeNumber x = .ok b

/-- R122: the length of a sequence's code. -/
def Obligations.SequenceCodeLength : Prop :=
  (∀ xs : List Int, (∀ x ∈ xs, 1 ≤ x) →
    ∃ b, encodeSequence xs = .ok b ∧ b.length = (xs.map fun x => 2 * bitlen x.toNat - 1).sum) ∧
  ∃ b, encodeSequence [1, 3, 5, 10] = .ok b ∧ b.length = 16

/-- R121: the machine's `ENCSEQ`, from every state, gives `encode_sequence`; a response the encoder still holds is none of
its `k` responses. The integers are those that have a `W`-bit word. -/
def Obligations.EncseqAgreesWithEncodeSequence : Prop :=
  ∀ (s : State) (xs : List Int),
    (∀ x ∈ xs, -(2 : Int) ^ (s.params.W - 1) ≤ x ∧ x < (2 : Int) ^ (s.params.W - 1)) →
    hwEncodeSequence s xs = encodeSequence xs

/-- R63: along any run without reset the responses come in the order of the words accepted, one for each: those taken and
the one still held are the one held at the start and the answers to the words. -/
def Obligations.ResponsesFollowWords : Prop :=
  ∀ (s : State) (k : Nat), (∀ i ∈ s.pending.take k, i.rst = false) →
    ∃ (e : Encoder s.params.W) (d : Decoder s.params.W),
      Sys2Proof.core.run k s = .next { s with enc := e, dec := d, pending := s.pending.drop k } ∧
      encOuts (trace k s) ++ heldResponses e.out =
        heldResponses s.enc.out ++
          (encIns (trace k s)).map fun w => encRecordOf (responseTo (BitVec.ofNat s.params.W w))

/-- R72, R75: a response the encoder holds is an OK response with its fields in their ranges, or an error response of
zeros; every step keeps it so. -/
def Obligations.EncoderResponsesStayWellFormed : Prop :=
  ∀ s t : State, EncoderInv s.enc → step s = .next t → EncoderInv t.enc

/-! ## The decoder's symbols -/

/-- R150, R53, R54: `DBIT0` in every state. In SCAN_PREFIX it counts the zero, or at `LMAX` fails the frame; in READ_OFFSET
it shifts the bit in, or completes the code; in DRAIN the FSM fields stay. A record still held is taken at the edge, so
where the symbol emits none the output register is empty after it, with its fields kept (log entry 3, DEDUCED). Nothing
else changes. In states outside R33 `cnt + 1` and `cnt - 1` keep the bits of the register (log entry 8, DEDUCED). -/
def Obligations.Dbit0Effect : Prop :=
  ∀ s : State,
    (s.dec.fs = .scanPrefix → s.dec.cnt.toNat = LMAX s.params.W →
      exec .dbit0 s = .next { s with dec := ⟨.drain, 0, 0, .valueOverflow, ⟨false, s.dec.out.held⟩⟩ }) ∧
    (s.dec.fs = .scanPrefix → s.dec.cnt.toNat ≠ LMAX s.params.W →
      exec .dbit0 s = .next { s with dec :=
        ⟨.scanPrefix, s.dec.cnt + 1, s.dec.acc, s.dec.err, ⟨false, s.dec.out.held⟩⟩ } ∧
      (s.dec.cnt.toNat < LMAX s.params.W → (s.dec.cnt + 1).toNat = s.dec.cnt.toNat + 1)) ∧
    (s.dec.fs = .readOffset → s.dec.cnt.toNat = 1 →
      ∃ x : BitVec s.params.W, x.toNat = 2 * s.dec.acc.toNat ∧
        exec .dbit0 s = .next { s with dec := ⟨.scanPrefix, 0, 0, s.dec.err, ⟨true, ⟨.value, .ok, x⟩⟩⟩ }) ∧
    (s.dec.fs = .readOffset → s.dec.cnt.toNat ≠ 1 →
      ∃ a : BitVec (AW s.params.W), (2 * s.dec.acc.toNat ≤ XMAX s.params.W → a.toNat = 2 * s.dec.acc.toNat) ∧
        exec .dbit0 s = .next { s with dec :=
          ⟨.readOffset, s.dec.cnt - 1, a, s.dec.err, ⟨false, s.dec.out.held⟩⟩ } ∧
        (2 ≤ s.dec.cnt.toNat → (s.dec.cnt - 1).toNat = s.dec.cnt.toNat - 1)) ∧
    (s.dec.fs = .drain → exec .dbit0 s = .next { s with dec := { s.dec with out := ⟨false, s.dec.out.held⟩ } })

/-- R152, R53, R54: `DBIT1` in every state. In SCAN_PREFIX it is the terminator: the code of 1 at a code boundary, else the
start of the offset; in READ_OFFSET it shifts the bit in, or completes the code; in DRAIN the FSM fields stay. A record
still held is taken at the edge, so where the symbol emits none the output register is empty after it, with its fields
kept (log entry 3, DEDUCED). Nothing else changes. In states outside R33 `cnt - 1` keeps the bits of the register (log
entry 8, DEDUCED). -/
def Obligations.Dbit1Effect : Prop :=
  ∀ s : State,
    (s.dec.fs = .scanPrefix → s.dec.cnt.toNat = 0 →
      ∃ x : BitVec s.params.W, x.toNat = 1 ∧
        exec .dbit1 s = .next { s with dec := { s.dec with out := ⟨true, ⟨.value, .ok, x⟩⟩ } }) ∧
    (s.dec.fs = .scanPrefix → s.dec.cnt.toNat ≠ 0 →
      ∃ a : BitVec (AW s.params.W), a.toNat = 1 ∧
        exec .dbit1 s = .next { s with dec :=
          ⟨.readOffset, s.dec.cnt, a, s.dec.err, ⟨false, s.dec.out.held⟩⟩ }) ∧
    (s.dec.fs = .readOffset → s.dec.cnt.toNat = 1 →
      ∃ x : BitVec s.params.W, x.toNat = 2 * s.dec.acc.toNat + 1 ∧
        exec .dbit1 s = .next { s with dec := ⟨.scanPrefix, 0, 0, s.dec.err, ⟨true, ⟨.value, .ok, x⟩⟩⟩ }) ∧
    (s.dec.fs = .readOffset → s.dec.cnt.toNat ≠ 1 →
      ∃ a : BitVec (AW s.params.W),
        (2 * s.dec.acc.toNat + 1 ≤ XMAX s.params.W → a.toNat = 2 * s.dec.acc.toNat + 1) ∧
        exec .dbit1 s = .next { s with dec :=
          ⟨.readOffset, s.dec.cnt - 1, a, s.dec.err, ⟨false, s.dec.out.held⟩⟩ } ∧
        (2 ≤ s.dec.cnt.toNat → (s.dec.cnt - 1).toNat = s.dec.cnt.toNat - 1)) ∧
    (s.dec.fs = .drain → exec .dbit1 s = .next { s with dec := { s.dec with out := ⟨false, s.dec.out.held⟩ } })

/-- R154: `DEND` in every state: it emits the frame's one DONE record and performs `boundary` (R149). -/
def Obligations.DendEffect : Prop :=
  ∀ s : State, ∃ outcome : Status,
    exec .dend s = .next { s with dec := ⟨.scanPrefix, 0, 0, .ok, ⟨true, ⟨.done, outcome, 0⟩⟩⟩ } ∧
    (s.dec.fs = .scanPrefix → s.dec.cnt.toNat = 0 → outcome = .ok) ∧
    (s.dec.fs = .scanPrefix → 1 ≤ s.dec.cnt.toNat → outcome = .prefixCutoff) ∧
    (s.dec.fs = .readOffset → outcome = .offsetCutoff) ∧
    (s.dec.fs = .drain → outcome = s.dec.err)

/-- R156, R53, R54: `DRSV` in every state: outside DRAIN it fails the frame with ILLEGAL_SYMBOL; in DRAIN the FSM fields
stay, the first error latched. It emits no record, and one still held is taken at the edge, so in every state the output
register is empty after it, with its fields kept (log entry 3, DEDUCED). Nothing else changes. -/
def Obligations.DrsvEffect : Prop :=
  ∀ s : State,
    (s.dec.fs ≠ .drain →
      exec .drsv s = .next { s with dec := ⟨.drain, 0, 0, .illegalSymbol, ⟨false, s.dec.out.held⟩⟩ }) ∧
    (s.dec.fs = .drain → exec .drsv s = .next { s with dec := { s.dec with out := ⟨false, s.dec.out.held⟩ } })

/-- R158, the whole decoder step: reset, the row of the state-by-symbol table at a transferred symbol with the record it
emits, and at any other edge nothing but the output register. -/
def Obligations.DecoderStepFollowsTable : Prop :=
  ∀ s : State, DecoderInv s.dec →
    ∃ (e : Encoder s.params.W) (d : Decoder s.params.W),
      step s = .next { s with enc := e, dec := d, pending := s.pending.tail } ∧
      ((nextInputs s).rst = true → d = Decoder.reset s.params.W) ∧
      ((nextInputs s).rst = false →
        match (nextTransfers s).decIn with
        | some sym =>
          fsmView d = (fsmTable (LMAX s.params.W) (fsmView s.dec) sym).1 ∧
          heldRecords d.out = (fsmTable (LMAX s.params.W) (fsmView s.dec) sym).2.toList ∧
          ((fsmTable (LMAX s.params.W) (fsmView s.dec) sym).2 = none → d.out.held = s.dec.out.held)
        | none =>
          fsmView d = fsmView s.dec ∧ d.out.held = s.dec.out.held ∧
          d.out.ov = (s.dec.out.ov && !(nextInputs s).decOutReady))

/-- R201, R144: DRAIN is left only through `DEND` or reset. Until then the first error stays latched and no record is
emitted. -/
def Obligations.DrainIsLeftOnlyThroughEnd : Prop :=
  ∀ (s : State) (e : Encoder s.params.W) (d : Decoder s.params.W), s.dec.fs = .drain →
    step s = .next { s with enc := e, dec := d, pending := s.pending.tail } →
    (nextInputs s).rst = true ∨ (nextTransfers s).decIn = some .dend ∨
      (d.fs = .drain ∧ d.err = s.dec.err ∧ (d.out.ov = true → s.dec.out.ov = true ∧ d.out = s.dec.out))

/-! ## Invariants -/

/-- R33: the reset state of every instance meets the invariant. -/
def Obligations.ResetMeetsInvariant : Prop :=
  ∀ p : Params, Inv (State.resetOf p)

/-- R33: every step keeps the decoder's invariant, from every state that meets it. -/
def Obligations.StepKeepsDecoderInvariant : Prop :=
  ∀ s t : State, DecoderInv s.dec → step s = .next t → DecoderInv t.dec

/-- R33: the invariant holds along every run from reset, whatever the host does. In clause 3 some `L` meets the rule's
bounds (log entry 14, DEDUCED); `FsmFieldsTellWhatWasRead` ties `L` to the symbols of the run. -/
def Obligations.InvariantHoldsInEveryRun : Prop :=
  ∀ (p : Params) (l : List (Inputs p.W)) (k : Nat) (t : State),
    Sys2Proof.core.run k { State.resetOf p with pending := l } = .next t → Inv t

/-! ## Frames and streams -/

/-- R63, R166: along any run without reset, whatever the stalls and idle edges, the decoder's fields and the records,
those taken and the one still held, are those of the table run over the symbols accepted. -/
def Obligations.RecordsFollowSymbols : Prop :=
  ∀ (s : State) (k : Nat), DecoderInv s.dec → (∀ i ∈ s.pending.take k, i.rst = false) →
    ∃ (e : Encoder s.params.W) (d : Decoder s.params.W),
      Sys2Proof.core.run k s = .next { s with enc := e, dec := d, pending := s.pending.drop k } ∧
      fsmView d = (fsmRun (LMAX s.params.W) (fsmView s.dec) (decIns (trace k s))).1 ∧
      decOuts (trace k s) ++ heldRecords d.out =
        heldRecords s.dec.out ++ (fsmRun (LMAX s.params.W) (fsmView s.dec) (decIns (trace k s))).2

/-- R160: a complete code with `L <= LMAX` zeros gives exactly the VALUE record of `2^L + val(t)`. -/
def Obligations.CompleteCodeGivesItsValue : Prop :=
  ∀ (s : State) (t : BitString), atFrameBoundary s → t.length ≤ LMAX s.params.W →
    ownRecords s ((List.replicate t.length false ++ [true] ++ t).map bitInstr) =
      [.value (2 ^ t.length + val t)] ∧
    bitlen (2 ^ t.length + val t) = t.length + 1

/-- R64, R161, R233: the symbols of a frame before its END give VALUE records only, and the END gives exactly one DONE
record after them. -/
def Obligations.FrameEndsInOneDoneRecord : Prop :=
  ∀ (s : State) (syms : List Instr), atFrameBoundary s → (∀ i ∈ syms, isSymbol i = true ∧ i ≠ .dend) →
    ∃ (vs : List Nat) (outcome : Status),
      ownRecords s syms = vs.map .value ∧
      ownRecords s (syms ++ [.dend]) = vs.map .value ++ [.done outcome]

/-- R197, R200: once a frame has failed, its remaining symbols give no record, and its END reports the first error. -/
def Obligations.FailedFrameReportsFirstError : Prop :=
  ∀ (s : State) (syms : List Instr), s.dec.fs = .drain →
    (∀ i ∈ syms, isSymbol i = true ∧ i ≠ .dend) →
    ownRecords s (syms ++ [.dend]) = [.done s.dec.err]

/-- R167: the machine's frame function agrees with the reference `decode` where no prefix is too long, and reports
VALUE_OVERFLOW otherwise. -/
def Obligations.DecodeAgreesWithReference : Prop :=
  ∀ (s : State) (b : BitString), atFrameBoundary s →
    ((∀ r ∈ codeBoundaries b, leadingZeros r ≤ LMAX s.params.W) →
      hwDecode s b = some (refDecode b) ∧
      ∀ xs, refDecode b = .ok xs → ∀ x ∈ xs, x ≤ XMAX s.params.W) ∧
    ((∃ r ∈ codeBoundaries b, LMAX s.params.W < leadingZeros r) →
      hwDecode s b = some (.error .valueOverflow) ∧
      (refDecode b = .error .prefixCutoff ∨ refDecode b = .error .offsetCutoff ∨
        ∃ xs, refDecode b = .ok xs ∧ ∃ x ∈ xs, XMAX s.params.W < x))

/-- R168: encode on the machine, serialise, decode on the machine: every list over `1 .. XMAX` comes back. -/
def Obligations.RoundTrip : Prop :=
  ∀ (s : State) (xs : List Nat), atFrameBoundary s →
    (∀ x ∈ xs, 1 ≤ x ∧ x ≤ XMAX s.params.W) →
    ∃ b, hwEncodeSequence s (xs.map fun (x : Nat) => (x : Int)) = .ok b ∧ hwDecode s b = some (.ok xs)

/-- R170: the outcome of a frame depends only on its own symbols, whichever they are: it is the same from every state at a
frame boundary, and the records of a frame that follows other frames are those it gives on its own. -/
def Obligations.FramesAreIndependent : Prop :=
  ∀ (p : Params) (e e' : Encoder p.W) (d d' : Decoder p.W) (l l' : List (Inputs p.W)),
    atFrameBoundary ⟨p, e, d, l⟩ → atFrameBoundary ⟨p, e', d', l'⟩ →
    (∀ b : BitString, hwDecode ⟨p, e, d, l⟩ b = hwDecode ⟨p, e', d', l'⟩ b) ∧
    ∀ frame : List Instr, (∀ i ∈ frame, isSymbol i = true ∧ i ≠ .dend) →
      ownRecords ⟨p, e, d, l⟩ (frame ++ [.dend]) = ownRecords ⟨p, e', d', l'⟩ (frame ++ [.dend]) ∧
      ∀ earlier : List Instr, (∀ i ∈ earlier, isSymbol i = true) →
        ownRecords ⟨p, e, d, l⟩ (earlier ++ [.dend] ++ frame ++ [.dend]) =
          ownRecords ⟨p, e, d, l⟩ (earlier ++ [.dend]) ++
            ownRecords ⟨p, e', d', l'⟩ (frame ++ [.dend])

/-- R172, R161, R162: what a frame's records say of its bits. The VALUE records of `DECODE "b"` are those of the complete
codes at the start of `b`, in order, and one DONE record follows. It says what is left of `b` after them: nothing (OK),
zeros only, a terminator without all of its offset bits, or a prefix of more than `LMAX` zeros. Outside VALUE_OVERFLOW no
longer prefix of `b` is made of complete codes, and in no other way is this one. -/
def Obligations.FrameIsItsCompleteCodes : Prop :=
  ∀ (s : State) (b : BitString), atFrameBoundary s →
    ∃ (vs : List Nat) (outcome : Status) (rest : BitString),
      ownRecords s (decodeInstrs b) = vs.map .value ++ [.done outcome] ∧
      b = vs.flatMap gammaCode ++ rest ∧ (∀ x ∈ vs, 1 ≤ x ∧ x ≤ XMAX s.params.W) ∧
      ((outcome = .ok ∧ rest = []) ∨
        (outcome = .prefixCutoff ∧ ∃ L, 1 ≤ L ∧ L ≤ LMAX s.params.W ∧ rest = List.replicate L false) ∨
        (outcome = .offsetCutoff ∧ ∃ L t, L ≤ LMAX s.params.W ∧ t.length < L ∧
          rest = List.replicate L false ++ [true] ++ t) ∨
        (outcome = .valueOverflow ∧ List.replicate (LMAX s.params.W + 1) false <+: rest)) ∧
      (outcome ≠ .valueOverflow → ∀ ys : List Nat, (∀ y ∈ ys, 1 ≤ y) → ys.flatMap gammaCode <+: b → ys <+: vs)

/-- R162, R172: a frame that ends in DONE OK is, whole, the concatenation of the codes of its values. -/
def Obligations.OkFrameIsItsCodes : Prop :=
  ∀ (s : State) (b : BitString) (xs : List Nat), atFrameBoundary s → hwDecode s b = some (.ok xs) →
    b = xs.flatMap gammaCode ∧ ∀ x ∈ xs, 1 ≤ x ∧ x ≤ XMAX s.params.W

/-- R162: bits after complete codes that do not form a complete code fail the frame: PREFIX_CUTOFF if they are zeros
only, OFFSET_CUTOFF if they hold a terminator. -/
def Obligations.TrailingBitsFailTheFrame : Prop :=
  ∀ (s : State) (xs : List Nat) (L : Nat) (t : BitString), atFrameBoundary s →
    (∀ x ∈ xs, 1 ≤ x ∧ x ≤ XMAX s.params.W) → L ≤ LMAX s.params.W →
    (1 ≤ L → hwDecode s (xs.flatMap gammaCode ++ List.replicate L false) = some (.error .prefixCutoff)) ∧
    (t.length < L →
      hwDecode s (xs.flatMap gammaCode ++ List.replicate L false ++ [true] ++ t) = some (.error .offsetCutoff))

/-! ## The two units -/

/-- R16, R65, R171: neither unit ever reads the other's state or channels: what happens on a unit's channels, along any
run, depends only on that unit, its own input ports and `rst`. -/
def Obligations.UnitsDoNotInterfere : Prop :=
  ∀ (p : Params) (e e' : Encoder p.W) (d d' : Decoder p.W) (l l' : List (Inputs p.W)) (k : Nat),
    (l.map encPorts = l'.map encPorts →
      (trace k ⟨p, e, d, l⟩).map (fun t => (t.encIn, t.encOut)) =
        (trace k ⟨p, e, d', l'⟩).map (fun t => (t.encIn, t.encOut))) ∧
    (l.map decPorts = l'.map decPorts →
      (trace k ⟨p, e, d, l⟩).map (fun t => (t.decIn, t.decOut)) =
        (trace k ⟨p, e', d, l'⟩).map (fun t => (t.decIn, t.decOut)))

/-! ## Output ports -/

/-- R25, R32: every output port, in every state and under every input. -/
def Obligations.OutputPortsShowHeldFields : Prop :=
  ∀ (s : State) (i : Inputs s.params.W),
    (outputs s i).encInReady = (!i.rst && (!s.enc.out.ov || i.encOutReady)) ∧
    (outputs s i).encOutValid = s.enc.out.ov ∧
    (outputs s i).encOutStatus = s.enc.out.held.status.code ∧
    (outputs s i).encOutN = s.enc.out.held.n ∧
    (outputs s i).encOutLen = s.enc.out.held.len ∧
    (outputs s i).encOutCode = s.enc.out.held.code ∧
    (outputs s i).decInReady = (!i.rst && (!s.dec.out.ov || i.decOutReady)) ∧
    (outputs s i).decOutValid = s.dec.out.ov ∧
    (outputs s i).decOutKind = s.dec.out.held.kind.code ∧
    (outputs s i).decOutStatus = s.dec.out.held.status.code ∧
    (outputs s i).decOutData = s.dec.out.held.data

/-- R74, R75: the numbers of the status codes and of the record kinds. -/
def Obligations.CodesAreNumbered : Prop :=
  Status.ok.code = 0 ∧ Status.invalidInput.code = 1 ∧ Status.prefixCutoff.code = 2 ∧ Status.offsetCutoff.code = 3 ∧
  Status.valueOverflow.code = 4 ∧ Status.illegalSymbol.code = 5 ∧ Kind.value.code = 0 ∧ Kind.done.code = 1

/-- R72, R74, R75, R82: the numbers on the output ports along every run from reset, whatever the host does. A response
shown is status 0 with its fields in their ranges or status 1 with zeros; a record shown is kind 0, status 0 and a value
in range, or kind 1, an outcome of a frame and data 0. So no port ever carries a reserved status. -/
def Obligations.PortsShowRecordsInRange : Prop :=
  ∀ (p : Params) (l : List (Inputs p.W)) (k : Nat) (t : State) (i : Inputs t.params.W),
    Sys2Proof.core.run k { State.resetOf p with pending := l } = .next t →
    ((outputs t i).encOutValid = true →
      ((outputs t i).encOutStatus.toNat = 0 ∧ 1 ≤ (outputs t i).encOutN.toNat ∧
        (outputs t i).encOutN.toNat ≤ NMAX t.params.W ∧
        (outputs t i).encOutLen.toNat = 2 * (outputs t i).encOutN.toNat - 1 ∧
        ∀ j, (outputs t i).encOutLen.toNat ≤ j → (outputs t i).encOutCode.getLsbD j = false) ∨
      ((outputs t i).encOutStatus.toNat = 1 ∧ (outputs t i).encOutN.toNat = 0 ∧
        (outputs t i).encOutLen.toNat = 0 ∧ (outputs t i).encOutCode.toNat = 0)) ∧
    ((outputs t i).decOutValid = true →
      ((outputs t i).decOutKind.toNat = 0 ∧ (outputs t i).decOutStatus.toNat = 0 ∧
        1 ≤ (outputs t i).decOutData.toNat ∧ (outputs t i).decOutData.toNat ≤ XMAX t.params.W) ∨
      ((outputs t i).decOutKind.toNat = 1 ∧ (outputs t i).decOutStatus.toNat ∈ [0, 2, 3, 4, 5] ∧
        (outputs t i).decOutData.toNat = 0)) ∧
    (outputs t i).encOutStatus.toNat ≤ 5 ∧ (outputs t i).decOutStatus.toNat ≤ 5

/-! ## What the decoder's fields tell -/

/-- R33, R34, R145, R146: along any run without reset from a frame boundary, the decoder's fields tell what of the symbols
accepted is still open. `pre` are the symbols up to the last code boundary. In SCAN_PREFIX `cnt` zeros follow it; in
READ_OFFSET a prefix of `L` zeros, the terminator and the offset bits `t`, of which `L - |t| = cnt` are missing, and the
accumulator is `2^k + val(t)` with `k = L - cnt`; in DRAIN the symbol that failed the frame and no END since, and `err` is
that symbol's error. -/
def Obligations.FsmFieldsTellWhatWasRead : Prop :=
  ∀ (s : State) (k : Nat), DecoderInv s.dec → fsmView s.dec = .atBoundary → (∀ i ∈ s.pending.take k, i.rst = false) →
    ∃ (e : Encoder s.params.W) (d : Decoder s.params.W) (pre : List Instr),
      Sys2Proof.core.run k s = .next { s with enc := e, dec := d, pending := s.pending.drop k } ∧
      (d.fs = .scanPrefix →
        decIns (trace k s) = pre ++ (List.replicate d.cnt.toNat false).map bitInstr ∧
        (fsmRun (LMAX s.params.W) .atBoundary pre).1 = .atBoundary) ∧
      (d.fs = .readOffset → ∃ (L : Nat) (t : BitString),
        decIns (trace k s) = pre ++ (List.replicate L false ++ [true] ++ t).map bitInstr ∧
        (fsmRun (LMAX s.params.W) .atBoundary pre).1 = .atBoundary ∧
        L ≤ LMAX s.params.W ∧ t.length < L ∧ d.cnt.toNat = L - t.length ∧
        d.acc.toNat = 2 ^ (L - d.cnt.toNat) + val t ∧
        2 ^ (L - d.cnt.toNat) ≤ d.acc.toNat ∧ d.acc.toNat < 2 ^ (L - d.cnt.toNat + 1)) ∧
      (d.fs = .drain → ∃ (bad : Instr) (since : List Instr),
        decIns (trace k s) = pre ++ [bad] ++ since ∧ .dend ∉ since ∧
        (fsmRun (LMAX s.params.W) .atBoundary pre).1.fs ≠ .drain ∧
        ((bad = .drsv ∧ d.err = .illegalSymbol) ∨
          (bad = .dbit0 ∧ d.err = .valueOverflow ∧
            (fsmRun (LMAX s.params.W) .atBoundary pre).1 = ⟨.scanPrefix, LMAX s.params.W, 0, .ok⟩)))

/-! ## Programs of the host -/

/-- R84, R85: every program with its stalls matched transfers every operation, once and in order on its channel, whatever
it waits for and from every state, and leaves no record in either output register. A program with a stall left open
transfers the first of its operations and no others. The edges of a stalled program, and that an offer is held, are log
entry 5 (DEDUCED); that it waits out `IDLE` and `RESET` is the model's choice (log entry 16). -/
def Obligations.ProgramTransfersEveryOperation : Prop :=
  ∀ (s : State) (as : List HostAction), (∀ i, HostAction.transfer i ∈ as → wellFormed s.params.W i = true) →
    let ops := as.filterMap HostAction.op
    let words := ops.filterMap fun
      | .enc _ d => some d.toNat
      | .dbit0 | .dbit1 | .dend | .drsv => none
    (programTransfers s as).length = (programEdges s as).length ∧
    decIns (programTransfers s as) <+: ops.filter isSymbol ∧ encIns (programTransfers s as) <+: words ∧
    (stallsMatched true true as = true →
      decIns (programTransfers s as) = ops.filter isSymbol ∧ encIns (programTransfers s as) = words ∧
      ∃ (e : Encoder s.params.W) (d : Decoder s.params.W),
        Sys2Proof.core.run (programEdges s as).length (s.setPending (programEdges s as)) =
          .next { s with enc := e, dec := d, pending := [] } ∧
        e.out.ov = false ∧ d.out.ov = false)

/-- R85: a program with no `STALL_*` holds both `out_ready` inputs at 1 at every edge, and each transfer, `IDLE` and `RESET`
is one edge, from every state; one more edge follows, which takes the last record. That a `TAKE_*` with no stall before it
is one edge too, a quiet one, is the model's choice: R85 counts no edge for it (log entry 5, DEDUCED). -/
def Obligations.UnstalledProgramIsOneEdgePerAction : Prop :=
  ∀ (s : State) (as : List HostAction), HostAction.stallE ∉ as → HostAction.stallD ∉ as →
    programEdges s as = as.map (fun
      | .transfer i => transferEdge s.params.W true true i
      | .reset => { quietEdge s.params.W true true with rst := true }
      | .idle | .stallE | .stallD | .takeE | .takeD => quietEdge s.params.W true true) ++
      [quietEdge s.params.W true true] ∧
    ∀ i ∈ programEdges s as, i.encOutReady = true ∧ i.decOutReady = true

/-- R63, R85, R166: stalls and idle edges change no record: a program without `RESET`, its stalls matched, gives the
responses and the records, in order, that its operations give with no stall, from every state. -/
def Obligations.StallsChangeNoRecord : Prop :=
  ∀ (s : State) (as : List HostAction), (∀ i, HostAction.transfer i ∈ as → wellFormed s.params.W i = true) →
    HostAction.reset ∉ as → stallsMatched true true as = true →
    encOuts (programTransfers s as) = encOuts (runInstrs s (as.filterMap HostAction.op)) ∧
    decOuts (programTransfers s as) = decOuts (runInstrs s (as.filterMap HostAction.op))
end

