-- ==== Sys2Proof/Laws/State.lean ====
section
/-! SUPPORT. One lemma per field and update of the state, each true by definition. -/

namespace Sys2Proof.Machine

open Sys2Proof.Config

section
variable (s : State) (e : Encoder s.params.W) (d : Decoder s.params.W) (l : List (Inputs s.params.W))

@[simp] theorem State.setEnc_params : (s.setEnc e).params = s.params := rfl
@[simp] theorem State.setEnc_enc : (s.setEnc e).enc = e := rfl
@[simp] theorem State.setEnc_dec : (s.setEnc e).dec = s.dec := rfl
@[simp] theorem State.setEnc_pending : (s.setEnc e).pending = s.pending := rfl

@[simp] theorem State.setDec_params : (s.setDec d).params = s.params := rfl
@[simp] theorem State.setDec_enc : (s.setDec d).enc = s.enc := rfl
@[simp] theorem State.setDec_dec : (s.setDec d).dec = d := rfl
@[simp] theorem State.setDec_pending : (s.setDec d).pending = s.pending := rfl

@[simp] theorem State.setPending_params : (s.setPending l).params = s.params := rfl
@[simp] theorem State.setPending_enc : (s.setPending l).enc = s.enc := rfl
@[simp] theorem State.setPending_dec : (s.setPending l).dec = s.dec := rfl
@[simp] theorem State.setPending_pending : (s.setPending l).pending = l := rfl
end

section
variable (s : State)

@[simp] theorem resetUnits_params : (resetUnits s).params = s.params := rfl
@[simp] theorem resetUnits_enc : (resetUnits s).enc = Encoder.reset s.params.W := rfl
@[simp] theorem resetUnits_dec : (resetUnits s).dec = Decoder.reset s.params.W := rfl
@[simp] theorem resetUnits_pending : (resetUnits s).pending = s.pending := rfl
end

section
variable {W : Nat} (D : Decoder W) (e : Status)

@[simp] theorem raiseError_fs : (raiseError e D).fs = .drain := rfl
@[simp] theorem raiseError_cnt : (raiseError e D).cnt = 0 := rfl
@[simp] theorem raiseError_acc : (raiseError e D).acc = 0 := rfl
@[simp] theorem raiseError_err : (raiseError e D).err = e := rfl
@[simp] theorem raiseError_out : (raiseError e D).out = D.out := rfl

@[simp] theorem boundary_fs : (boundary D).fs = .scanPrefix := rfl
@[simp] theorem boundary_cnt : (boundary D).cnt = 0 := rfl
@[simp] theorem boundary_acc : (boundary D).acc = 0 := rfl
@[simp] theorem boundary_err : (boundary D).err = .ok := rfl
@[simp] theorem boundary_out : (boundary D).out = D.out := rfl

@[simp] theorem codeDone_fs : (codeDone D).fs = .scanPrefix := rfl
@[simp] theorem codeDone_cnt : (codeDone D).cnt = 0 := rfl
@[simp] theorem codeDone_acc : (codeDone D).acc = 0 := rfl
@[simp] theorem codeDone_err : (codeDone D).err = D.err := rfl
@[simp] theorem codeDone_out : (codeDone D).out = D.out := rfl
end

end Sys2Proof.Machine
end

