-- ==== Sys2Proof/Laws/Ops.lean ====
section
/-! SUPPORT. What each shared operation does, said once: the handshake, the output register, the two ways a meaning ends,
and the edge. -/

namespace Sys2Proof.Machine

open Sys2Proof.Config

theorem inReady_iff {rst ov outReady : Bool} :
    inReady rst ov outReady = true ↔ rst = false ∧ (ov = false ∨ outReady = true) := by
  cases rst <;> cases ov <;> cases outReady <;> decide

theorem inFire_iff {rst valid ov outReady : Bool} :
    inFire rst valid ov outReady = true ↔ valid = true ∧ rst = false ∧ (ov = false ∨ outReady = true) := by
  simp [inFire, inReady_iff]

theorem outFire_iff {rst ov outReady : Bool} :
    outFire rst ov outReady = true ↔ rst = false ∧ ov = true ∧ outReady = true := by
  cases rst <;> cases ov <;> cases outReady <;> decide

section
variable {α : Type} (r : OutReg α) (x : α)

@[simp] theorem outUpdate_some (b : Bool) : outUpdate (some x) b r = ⟨true, x⟩ := rfl
@[simp] theorem outUpdate_none_taken : outUpdate none true r = { r with ov := false } := rfl
@[simp] theorem outUpdate_none_kept : outUpdate none false r = r := rfl
@[simp] theorem emitAtTransfer_some : emitAtTransfer (some x) r = ⟨true, x⟩ := rfl

/-- A transfer that emits nothing leaves the register empty, its last record still in it. -/
@[simp] theorem emitAtTransfer_none : emitAtTransfer none r = { r with ov := false } := by
  rcases r with ⟨_ | _, h⟩ <;> rfl
end

theorem respond_eq (s : State) (r : Response s.params.W) : respond s r = .next (s.setEnc ⟨⟨true, r⟩⟩) := rfl

theorem accept_some_eq (s : State) (D : Decoder s.params.W) (r : Record s.params.W) :
    accept s D (some r) = .next (s.setDec { D with out := ⟨true, r⟩ }) := rfl

theorem accept_none_eq (s : State) (D : Decoder s.params.W) :
    accept s D none = .next (s.setDec { D with out := { s.dec.out with ov := false } }) := by
  simp [accept]

theorem readOffsetBit_last {s : State} (b : Bool) (h : s.dec.cnt.toNat = 1) :
    readOffsetBit s b = .next (s.setDec { codeDone s.dec with
      out := ⟨true, valueRecord _ (shiftIn s.dec.acc b)⟩ }) := by
  simp [readOffsetBit, h, accept_some_eq]

theorem readOffsetBit_more {s : State} (b : Bool) (h : s.dec.cnt.toNat ≠ 1) :
    readOffsetBit s b = .next (s.setDec { s.dec with
      acc := BitVec.ofNat _ (shiftIn s.dec.acc b), cnt := s.dec.cnt - 1, out := { s.dec.out with ov := false } }) := by
  simp [readOffsetBit, h, accept_none_eq]

@[simp] theorem andThen_next (s : State) (f : State → Result) : andThen (.next s) f = f s := rfl

theorem edge_reset {w : Nat} {i : Inputs w} (h : i.rst = true) (s : State) : edge i s = .next (resetUnits s) := by
  simp [edge, h]

theorem edge_run {w : Nat} {i : Inputs w} (h : i.rst = false) (s : State) :
    edge i s = andThen (encEdge i s) (decEdge i) := by
  simp [edge, h]

@[simp] theorem nextInputs_cons (s : State) (i : Inputs s.params.W) (l : List (Inputs s.params.W)) :
    nextInputs (s.setPending (i :: l)) = i := rfl

@[simp] theorem nextInputs_nil (s : State) : nextInputs (s.setPending []) = idleInputs s.params.W := rfl

end Sys2Proof.Machine
end

