-- ==== Sys2Proof/Laws/Step.lean ====
section
/-! SUPPORT. What a meaning and a step answer, said once in closed form: the next encoder and the next decoder as
functions of the unit and the edge's inputs (00_scope.md R13). Later proofs cite these and unfold neither. -/

namespace Sys2Proof.Machine

open Sys2Proof.Config

section
variable {W : Nat}

/-- The decoder after one offset bit. -/
def afterOffsetBit (D : Decoder W) (b : Bool) : Decoder W :=
  if D.cnt.toNat = 1 then { codeDone D with out := ⟨true, valueRecord W (shiftIn D.acc b)⟩ }
  else { D with acc := BitVec.ofNat _ (shiftIn D.acc b), cnt := D.cnt - 1, out := { D.out with ov := false } }

/-- The decoder after the transfer of a symbol. -/
def afterSymbol (i : Instr) (D : Decoder W) : Decoder W :=
  match i, D.fs with
  | .enc _ _, _ => D
  | .dbit0, .scanPrefix =>
    if D.cnt.toNat = LMAX W then { raiseError .valueOverflow D with out := { D.out with ov := false } }
    else { D with cnt := D.cnt + 1, out := { D.out with ov := false } }
  | .dbit0, .readOffset => afterOffsetBit D false
  | .dbit1, .scanPrefix =>
    if D.cnt.toNat = 0 then { D with out := ⟨true, valueRecord W 1⟩ }
    else { D with acc := 1, fs := .readOffset, out := { D.out with ov := false } }
  | .dbit1, .readOffset => afterOffsetBit D true
  | .dend, _ => { boundary D with out := ⟨true, doneRecord W (endStatus D)⟩ }
  | .drsv, .scanPrefix => { raiseError .illegalSymbol D with out := { D.out with ov := false } }
  | .drsv, .readOffset => { raiseError .illegalSymbol D with out := { D.out with ov := false } }
  | .dbit0, .drain => { D with out := { D.out with ov := false } }
  | .dbit1, .drain => { D with out := { D.out with ov := false } }
  | .drsv, .drain => { D with out := { D.out with ov := false } }

/-- The encoder after an edge. -/
def nextEncoder (i : Inputs W) (E : Encoder W) : Encoder W :=
  if i.rst then Encoder.reset W
  else if inFire i.rst i.encInValid E.out.ov i.encOutReady then ⟨⟨true, responseTo i.encInData⟩⟩
  else ⟨outUpdate none (outFire i.rst E.out.ov i.encOutReady) E.out⟩

/-- The decoder after an edge. -/
def nextDecoder (i : Inputs W) (D : Decoder W) : Decoder W :=
  if i.rst then Decoder.reset W
  else if inFire i.rst i.decInValid D.out.ov i.decOutReady then afterSymbol (decodeSym i.decInSym) D
  else { D with out := outUpdate none (outFire i.rst D.out.ov i.decOutReady) D.out }
end

theorem isSymbol_decodeSym : ∀ y : BitVec 2, isSymbol (decodeSym y) = true := by decide

theorem exec_enc_eq (s : State) (d : BitVec s.params.W) :
    exec (.enc s.params.W d) s = .next (s.setEnc ⟨⟨true, responseTo d⟩⟩) := by
  simp only [exec, execEnc, if_true, respond_eq]
  rw [BitVec.setWidth_eq]

theorem exec_symbol_eq {i : Instr} (h : isSymbol i = true) (s : State) :
    exec i s = .next (s.setDec (afterSymbol i s.dec)) := by
  cases i with
  | enc => simp [isSymbol] at h
  | dend => rfl
  | dbit0 =>
    cases hfs : s.dec.fs <;> simp only [exec, execDbit0, afterSymbol, hfs]
    · split <;> simp_all [accept_none_eq, raiseError]
    · simp only [readOffsetBit, afterOffsetBit]
      split <;> simp [accept_none_eq, accept_some_eq, hfs]
    · simp [accept_none_eq, hfs]
  | dbit1 =>
    cases hfs : s.dec.fs <;> simp only [exec, execDbit1, afterSymbol, hfs]
    · split <;> simp [accept_none_eq, accept_some_eq, hfs]
    · simp only [readOffsetBit, afterOffsetBit]
      split <;> simp [accept_none_eq, accept_some_eq, hfs]
    · simp [accept_none_eq, hfs]
  | drsv =>
    cases hfs : s.dec.fs <;> simp [exec, execDrsv, afterSymbol, hfs, accept_none_eq, raiseError]

theorem encEdge_eq (s : State) {i : Inputs s.params.W} (h : i.rst = false) :
    encEdge i s = .next (s.setEnc (nextEncoder i s.enc)) := by
  simp only [encEdge, nextEncoder, h]
  split
  · rw [exec_enc_eq]
    rfl
  · rfl

theorem decEdge_eq (s : State) {i : Inputs s.params.W} (h : i.rst = false) :
    decEdge i s = .next (s.setDec (nextDecoder i s.dec)) := by
  simp only [decEdge, nextDecoder, h]
  split
  · rw [exec_symbol_eq (isSymbol_decodeSym _)]
    rfl
  · rfl

/-- Every step answers, and what it answers. -/
theorem step_eq (p : Params) (e : Encoder p.W) (d : Decoder p.W) (l : List (Inputs p.W)) :
    step ⟨p, e, d, l⟩ = .next
      ⟨p, nextEncoder (l.headD (idleInputs p.W)) e, nextDecoder (l.headD (idleInputs p.W)) d, l.tail⟩ := by
  show edge (l.headD (idleInputs p.W)) ⟨p, e, d, l.tail⟩ = _
  generalize l.headD (idleInputs p.W) = i
  rcases h : i.rst with _ | _
  · rw [edge_run h, encEdge_eq ⟨p, e, d, l.tail⟩ h]
    exact decEdge_eq ⟨p, nextEncoder i e, d, l.tail⟩ h
  · rw [edge_reset h]
    simp [resetUnits, nextEncoder, nextDecoder, h]

/-- The same of one edge under given inputs. -/
theorem edge_eq (p : Params) (e : Encoder p.W) (d : Decoder p.W) (l : List (Inputs p.W)) (i : Inputs p.W) :
    edge i ⟨p, e, d, l⟩ = .next ⟨p, nextEncoder i e, nextDecoder i d, l⟩ := step_eq p e d (i :: l)

theorem run_succ (k : Nat) (p : Params) (e : Encoder p.W) (d : Decoder p.W) (l : List (Inputs p.W)) :
    Sys2Proof.core.run (k + 1) ⟨p, e, d, l⟩ = Sys2Proof.core.run k
      ⟨p, nextEncoder (l.headD (idleInputs p.W)) e, nextDecoder (l.headD (idleInputs p.W)) d, l.tail⟩ := by
  have h : Sys2Proof.core.step ⟨p, e, d, l⟩ = _ := step_eq p e d l
  simp only [Host.Core.run]
  rw [h]

@[simp] theorem trace_zero (s : State) : trace 0 s = [] := rfl

theorem trace_succ (k : Nat) (p : Params) (e : Encoder p.W) (d : Decoder p.W) (l : List (Inputs p.W)) :
    trace (k + 1) ⟨p, e, d, l⟩ = nextTransfers ⟨p, e, d, l⟩ :: trace k
      ⟨p, nextEncoder (l.headD (idleInputs p.W)) e, nextDecoder (l.headD (idleInputs p.W)) d, l.tail⟩ := by
  simp [trace, step_eq]

/-- No step stops, so a run of `k` steps has the transfers of `k` edges. -/
@[simp] theorem trace_length (k : Nat) (s : State) : (trace k s).length = k := by
  induction k generalizing s with
  | zero => rfl
  | succ k ih =>
    obtain ⟨p, e, d, l⟩ := s
    rw [trace_succ, List.length_cons, ih]

end Sys2Proof.Machine
end

