-- ==== Sys2Proof/Laws/HostActions.lean ====
section
/-! SUPPORT. What a program of the host drives, one lemma per case of `edgesOf` and `waitEdges` (30_encoding.md R85), and
what an edge does with the payloads that wait. -/

namespace Sys2Proof.Machine

open Sys2Proof.Config

section
variable {W : Nat} (h : HostState W)

@[simp] theorem offering_rst : h.offering.rst = false := rfl
@[simp] theorem offering_encOutReady : h.offering.encOutReady = h.encReady := rfl
@[simp] theorem offering_decOutReady : h.offering.decOutReady = h.decReady := rfl
@[simp] theorem offering_encInValid : h.offering.encInValid = !h.encOffers.isEmpty := rfl
@[simp] theorem offering_decInValid : h.offering.decInValid = !h.decOffers.isEmpty := rfl
@[simp] theorem offering_encInData : h.offering.encInData = h.encOffers.headD 0 := rfl
@[simp] theorem offering_decInSym : h.offering.decInSym = h.decOffers.headD 0 := rfl
@[simp] theorem quiet_encInValid : h.quiet.encInValid = false := rfl
@[simp] theorem quiet_decInValid : h.quiet.decInValid = false := rfl
@[simp] theorem after_encReady (i : Inputs W) (s : State) : (h.after i s).encReady = h.encReady := rfl
@[simp] theorem after_decReady (i : Inputs W) (s : State) : (h.after i s).decReady = h.decReady := rfl
end

variable (p : Params) (e : Encoder p.W) (d : Decoder p.W) (l : List (Inputs p.W))

theorem waitEdges_succ (n : Nat) (h : HostState p.W) :
    waitEdges (n + 1) h ⟨p, e, d, l⟩ = h.offering :: waitEdges n (h.after h.offering ⟨p, e, d, l⟩)
      ⟨p, nextEncoder h.offering e, nextDecoder h.offering d, l⟩ := by
  rw [waitEdges, edge_eq]

/-- The end of a program. -/
theorem edgesOf_nil {W : Nat} (h : HostState W) (s : State) :
    edgesOf h s [] = waitEdges (max h.encOffers.length h.decOffers.length) h s ++ [h.quiet] := rfl

/-- An action that is no edge. -/
theorem edgesOf_of_act_none {W : Nat} {h h' : HostState W} {a : HostAction} (ha : h.act a = (h', none)) (s : State)
    (as : List HostAction) : edgesOf h s (a :: as) = edgesOf h' s as := by
  rw [edgesOf, ha]

/-- An action that is one edge. -/
theorem edgesOf_of_act_some {h h' : HostState p.W} {a : HostAction} {i : Inputs p.W} (ha : h.act a = (h', some i))
    (as : List HostAction) :
    edgesOf h ⟨p, e, d, l⟩ (a :: as) =
      i :: edgesOf (h'.after i ⟨p, e, d, l⟩) ⟨p, nextEncoder i e, nextDecoder i d, l⟩ as := by
  rw [edgesOf, ha]
  simp only
  rw [edge_eq]

end Sys2Proof.Machine
end

