-- ==== Sys2Proof/Laws/Numbers.lean ====
section
/-! SUPPORT. The small facts about `bitlen`, `val` and the bit strings of the reference functions. -/

namespace Sys2Proof

@[simp] theorem bitlen_zero : bitlen 0 = 0 := rfl

theorem bitlen_of_pos {x : Nat} (h : 1 ≤ x) : bitlen x = Nat.log2 x + 1 := by
  simp [bitlen, Nat.ne_of_gt h]

theorem lt_two_pow_bitlen (x : Nat) : x < 2 ^ bitlen x := by
  rcases Nat.eq_zero_or_pos x with rfl | h
  · simp
  · rw [bitlen_of_pos h]
    exact Nat.lt_log2_self

theorem bitlen_le_iff {x n : Nat} : bitlen x ≤ n ↔ x < 2 ^ n := by
  rcases Nat.eq_zero_or_pos x with rfl | h
  · simp
  · rw [bitlen_of_pos h, Nat.succ_le_iff, Nat.log2_lt (Nat.ne_of_gt h)]

theorem two_pow_le_of_pos {x : Nat} (h : 1 ≤ x) : 2 ^ (bitlen x - 1) ≤ x := by
  rw [bitlen_of_pos h]
  exact Nat.log2_self_le (Nat.ne_of_gt h)

namespace Machine

@[simp] theorem val_nil : val [] = 0 := rfl

@[simp] theorem lowBits_length (n x : Nat) : (lowBits n x).length = n := by simp [lowBits]

@[simp] theorem bin_length (x : Nat) : (bin x).length = bitlen x := by simp [bin]

@[simp] theorem leadingZeros_nil : leadingZeros [] = 0 := rfl
@[simp] theorem leadingZeros_zero (b : BitString) : leadingZeros (false :: b) = leadingZeros b + 1 := rfl
@[simp] theorem leadingZeros_one (b : BitString) : leadingZeros (true :: b) = 0 := rfl

@[simp] theorem fsmRun_nil (lmax : Nat) (v : FsmView) : fsmRun lmax v [] = (v, []) := rfl

theorem fsmRun_cons (lmax : Nat) (v : FsmView) (sym : Instr) (syms : List Instr) :
    fsmRun lmax v (sym :: syms) =
      ((fsmRun lmax (fsmTable lmax v sym).1 syms).1,
        (fsmTable lmax v sym).2.toList ++ (fsmRun lmax (fsmTable lmax v sym).1 syms).2) := rfl

/-- A run over one list of symbols and then another. -/
theorem fsmRun_append (lmax : Nat) (v : FsmView) (xs ys : List Instr) :
    fsmRun lmax v (xs ++ ys) =
      ((fsmRun lmax (fsmRun lmax v xs).1 ys).1, (fsmRun lmax v xs).2 ++ (fsmRun lmax (fsmRun lmax v xs).1 ys).2) := by
  induction xs generalizing v with
  | nil => simp
  | cons x xs ih => simp [fsmRun_cons, ih]

end Machine

end Sys2Proof
end

