-- ==== Sys2Proof/Laws/PerInstr.lean ====
section
/-! SUPPORT. Facts about every operation as syntax, one lemma per constructor. -/

namespace Sys2Proof.Laws.Channel

/-- The channel of an operation's payload is `enc_in` exactly for `ENC`, and its width is the port's: `W` there, 2 on
`dec_in` (R71, R73, R83). -/
def Statement (i : Instr) : Prop :=
  ∀ W, wellFormed W i = true →
    ((encode i).channel = .encIn ∧ (encode i).width = W) ∨ ((encode i).channel = .decIn ∧ (encode i).width = 2)

theorem enc (w : Nat) (d : BitVec w) : Statement (.enc w d) := by
  intro W h
  simp_all [wellFormed, encode]

theorem dbit0 : Statement .dbit0 := fun _ _ => .inr ⟨rfl, rfl⟩
theorem dbit1 : Statement .dbit1 := fun _ _ => .inr ⟨rfl, rfl⟩
theorem dend : Statement .dend := fun _ _ => .inr ⟨rfl, rfl⟩
theorem drsv : Statement .drsv := fun _ _ => .inr ⟨rfl, rfl⟩

end Sys2Proof.Laws.Channel
end

