-- ==== Sys2Proof/Laws/Widths.lean ====
section
/-! SUPPORT. No arithmetic of the decoder wraps where its invariant holds: the widths of R7 hold the values of R33. -/

namespace Sys2Proof.Machine

open Sys2Proof.Config

variable {W : Nat}

theorem toNat_one_of_pos {w : Nat} (h : 1 ≤ w) : (1 : BitVec w).toNat = 1 := by
  have := Nat.one_lt_two_pow (n := w) (by omega)
  simp [BitVec.toNat_ofNat]
  omega

theorem cnt_add_one {c : BitVec (CNTW W)} (h : c.toNat < LMAX W) : (c + 1).toNat = c.toNat + 1 := by
  have hw : LMAX W < 2 ^ CNTW W :=
    lt_of_lt_of_le (lt_two_pow_bitlen (W - 2)) (Nat.pow_le_pow_right (by omega) (by simp [CNTW]))
  rw [BitVec.toNat_add, toNat_one_of_pos (by simp [CNTW])]
  exact Nat.mod_eq_of_lt (by omega)

theorem cnt_sub_one {c : BitVec (CNTW W)} (h : 1 ≤ c.toNat) : (c - 1).toNat = c.toNat - 1 := by
  have h1 : (1 : BitVec (CNTW W)).toNat = 1 := toNat_one_of_pos (by simp [CNTW])
  rw [BitVec.toNat_sub_of_le (by rw [BitVec.le_def, h1]; exact h), h1]

/-- The emitted value always fits the data word. -/
theorem shiftIn_lt (hW : 2 ≤ W) (acc : BitVec (AW W)) (b : Bool) : shiftIn acc b < 2 ^ W := by
  have h := acc.isLt
  have e : 2 ^ W = 2 * 2 ^ AW W := by
    rw [← Nat.pow_succ']
    congr 1
    simp [AW]
    omega
  unfold shiftIn
  cases b <;> simp <;> omega

theorem lt_two_pow_AW {x : Nat} (h : x ≤ XMAX W) : x < 2 ^ AW W := by
  have : 0 < 2 ^ (W - 1) := by positivity
  simp only [XMAX] at h
  simp only [AW]
  omega

end Sys2Proof.Machine
end

