-- ==== Sys2Proof/Tests/Slice0.lean ====
section
/-! SUPPORT. The model's own tests. Expected results are the spec's: its tables (R7), its encodings (R71, R73) and its
test vectors (95_test_vectors.md), or worked out by hand from the rule named. The `witness_` theorems show, for each
statement with hypotheses, a state and operands that meet them. -/

namespace Sys2Proof.Tests

open Sys2Proof.Machine Sys2Proof.Config

/-! ## Helpers -/

/-- The instance of width 4 of the spec's width corners. -/
def p4 : Params := ⟨4, by decide⟩

/-- The state a meaning or a step answers. -/
def nextOf : Result → Option State
  | .next s => some s
  | .fault _ => none
  | .refused _ => none

/-- A decoder of width 4 with an empty output register. -/
def dec4 (fs : Fs) (cnt acc : Nat) (err : Status) : Decoder 4 :=
  ⟨fs, BitVec.ofNat _ cnt, BitVec.ofNat _ acc, err, ⟨false, Record.zero 4⟩⟩

/-- A state of width 4 with that decoder. -/
def st4 (fs : Fs) (cnt acc : Nat) (err : Status) : State := ⟨p4, Encoder.reset 4, dec4 fs cnt acc err, []⟩

/-- The decoder's fields and the records it holds after an operation. -/
def decAfter (o : Result) : Option (FsmView × List DecRecord) :=
  (nextOf o).map fun s => (fsmView s.dec, heldRecords s.dec.out)

/-- The responses the encoder holds after an operation. -/
def encAfter (o : Result) : Option (List EncRecord) := (nextOf o).map fun s => heldResponses s.enc.out

/-- An edge that offers the word `d` to an encoder of width 32. -/
def offer32 (rst valid : Bool) (d : BitVec 32) (ready : Bool) : Inputs 32 := ⟨rst, valid, d, ready, false, 0, false⟩

/-- A state of width 32 whose encoder holds the response to 5, with one edge to come. -/
def holding5 (i : Inputs 32) : State :=
  ⟨shown, ⟨⟨true, responseTo (W := 32) 5⟩⟩, Decoder.reset 32, [i]⟩

/-! ## Constants (the table of R7) -/

theorem test_constants_at_4 :
    [XMAX 4, NMAX 4, LMAX 4, CMAX 4, CW 4, NW 4, LENW 4, CNTW 4, AW 4] = [7, 3, 2, 5, 5, 2, 3, 2, 3] := by decide

theorem test_constants_at_32 :
    [XMAX 32, NMAX 32, LMAX 32, CMAX 32, CW 32, NW 32, LENW 32, CNTW 32, AW 32] =
      [2147483647, 31, 30, 61, 61, 5, 6, 5, 31] := by decide

/-! ## Well-formedness: an ill-formed term for the one check -/

theorem test_illFormed_enc_width : wellFormed 4 (.enc 5 0b00001#5) = false := by decide

theorem test_wellFormed_enc_width : wellFormed 4 (.enc 4 0b0001#4) = true := by decide

/-! ## Decoding: payloads written out from R71 and R73 -/

theorem test_decode_enc : (decode 4 ⟨.encIn, 4, 0b1011#4⟩).toOption = some (.enc 4 0b1011#4) := by decide
theorem test_decode_dbit0 : (decode 4 ⟨.decIn, 2, 0b00#2⟩).toOption = some .dbit0 := by decide
theorem test_decode_dbit1 : (decode 4 ⟨.decIn, 2, 0b01#2⟩).toOption = some .dbit1 := by decide
theorem test_decode_dend : (decode 4 ⟨.decIn, 2, 0b10#2⟩).toOption = some .dend := by decide
theorem test_decode_drsv : (decode 4 ⟨.decIn, 2, 0b11#2⟩).toOption = some .drsv := by decide
theorem test_decode_rejects_widths :
    (decode 4 ⟨.encIn, 5, 0b00001#5⟩).toOption = none ∧ (decode 4 ⟨.decIn, 3, 0b001#3⟩).toOption = none := by decide
theorem test_decodeTableWord_symbols :
    [0, 1, 2, 3, 4].map (decodeTableWord 8) = [some .dbit0, some .dbit1, some .dend, some .drsv, none] := by decide
theorem test_decodeTableWord_word : decodeTableWord 32 0xFFFFFFFB = some (.enc 32 0xFFFFFFFB#32) := by decide
theorem test_transferText : transferText (.enc 32 0xFFFFFFFB#32) = "ENC -5" := by decide

/-! ## Meanings, one step each (95_test_vectors.md sections 2.1 to 2.4) -/

theorem test_enc_xmax :
    encAfter (exec (.enc 32 0x7FFFFFFF#32) (State.resetOf shown)) = some [⟨.ok, 31, 61, 0x7FFFFFFF⟩] := by decide
theorem test_enc_signBit_isInvalid :
    encAfter (exec (.enc 4 0b1000#4) (State.resetOf p4)) = some [⟨.invalidInput, 0, 0, 0⟩] := by decide
theorem test_dbit0_overflows_at_lmax :
    decAfter (exec .dbit0 (st4 .scanPrefix 2 0 .ok)) = some (⟨.drain, 0, 0, .valueOverflow⟩, []) := by decide
theorem test_dbit0_last_offset_bit :
    decAfter (exec .dbit0 (st4 .readOffset 1 3 .ok)) = some (⟨.scanPrefix, 0, 0, .ok⟩, [.value 6]) := by decide
theorem test_dbit1_terminator :
    decAfter (exec .dbit1 (st4 .scanPrefix 2 0 .ok)) = some (⟨.readOffset, 2, 1, .ok⟩, []) := by decide
theorem test_dbit1_alone_is_one :
    decAfter (exec .dbit1 (st4 .scanPrefix 0 0 .ok)) = some (⟨.scanPrefix, 0, 0, .ok⟩, [.value 1]) := by decide
theorem test_dend_offset_cutoff :
    decAfter (exec .dend (st4 .readOffset 1 1 .ok)) = some (⟨.scanPrefix, 0, 0, .ok⟩, [.done .offsetCutoff]) := by decide
theorem test_dend_reports_latched_error :
    decAfter (exec .dend (st4 .drain 0 0 .valueOverflow)) =
      some (⟨.scanPrefix, 0, 0, .ok⟩, [.done .valueOverflow]) := by decide
theorem test_drsv_in_readOffset :
    decAfter (exec .drsv (st4 .readOffset 1 1 .ok)) = some (⟨.drain, 0, 0, .illegalSymbol⟩, []) := by decide
theorem test_drsv_keeps_first_error :
    decAfter (exec .drsv (st4 .drain 0 0 .valueOverflow)) = some (⟨.drain, 0, 0, .valueOverflow⟩, []) := by decide

/-! ## Edges (95_test_vectors.md section 2.5: edges 0, 2, 3 and 4 of the encoder's trace) -/

theorem test_reset_edge_transfers_nothing :
    nextTransfers (holding5 (offer32 true true 0x5 true)) = ⟨none, none, none, none⟩ ∧
    encAfter (step (holding5 (offer32 true true 0x5 true))) = some [] := by decide
theorem test_stalled_edge :
    nextTransfers (holding5 (offer32 false true 0xA false)) = ⟨none, none, none, none⟩ ∧
    encAfter (step (holding5 (offer32 false true 0xA false))) = some [⟨.ok, 3, 5, 5⟩] := by decide
theorem test_take_and_accept_edge :
    nextTransfers (holding5 (offer32 false true 0xA true)) = ⟨some 10, some ⟨.ok, 3, 5, 5⟩, none, none⟩ ∧
    encAfter (step (holding5 (offer32 false true 0xA true))) = some [⟨.ok, 4, 7, 10⟩] := by decide
theorem test_take_edge_keeps_fields :
    (nextOf (step (holding5 (offer32 false false 0 true)))).map (fun s => (s.enc.out.ov, encRecordOf s.enc.out.held)) =
      some (false, ⟨.ok, 3, 5, 5⟩) := by decide
theorem test_withFetchWord_runs_dend :
    decAfter (step (State.reset.withFetchWord 8 2)) = some (⟨.scanPrefix, 0, 0, .ok⟩, [.done .ok]) := by decide
theorem test_withFetchWord_runs_enc :
    encAfter (step (State.reset.withFetchWord 32 10)) = some [⟨.ok, 4, 7, 10⟩] := by decide
/-- Edges 1 to 4 of the encoder's trace: the offer of `0xA` is held over the stalled edge. -/
theorem test_stalled_offer_is_held :
    (programEdges (State.resetOf shown)
      [.transfer (.enc 32 5), .stallE, .transfer (.enc 32 10), .takeE]).map
      (fun i => (i.encInValid, i.encInData.toNat, i.encOutReady)) =
      [(true, 5, true), (true, 10, false), (true, 10, true), (false, 0, true)] := by decide
theorem test_stall_program_edges :
    (programEdges (State.resetOf p4) [.stallE, .transfer .dbit1, .takeE, .idle]).map
      (fun i => (i.encOutReady, i.decOutReady, i.decInValid)) =
      [(false, true, true), (true, true, false), (true, true, false), (true, true, false)] := by decide
theorem test_offers_wait_their_turn :
    (programEdges (State.resetOf p4)
      [.stallE, .transfer (.enc 4 1), .transfer (.enc 4 2), .transfer (.enc 4 3), .takeE]).map
      (fun i => (i.encInValid, i.encInData.toNat)) =
      [(true, 1), (true, 2), (true, 2), (true, 2), (true, 3), (false, 0)] := by decide
/-- The mid-frame reset of section 2.5: the last record, DONE OK, is taken too. -/
theorem test_program_takes_last_record :
    decOuts (programTransfers (State.resetOf p4)
      [.transfer .dbit0, .transfer .dbit1, .reset, .transfer .dbit1, .transfer .dend]) = [.value 1, .done .ok] := by decide

/-! ## Ports (the codes of R74 and R75) -/

theorem test_ports_show_done_prefix_cutoff :
    (nextOf (exec .dend (st4 .scanPrefix 2 0 .ok))).map
      (fun s => ((outputs s (idleInputs _)).decOutValid, (outputs s (idleInputs _)).decOutKind.toNat,
        (outputs s (idleInputs _)).decOutStatus.toNat)) = some (true, 1, 2) := by decide
theorem test_ports_show_invalid_input :
    (nextOf (exec (.enc 4 0) (State.resetOf p4))).map
      (fun s => ((outputs s (idleInputs _)).encOutValid, (outputs s (idleInputs _)).encOutStatus.toNat)) =
      some (true, 1) := by decide

/-! ## Reference functions (S1, S7, S8, S9 of 95_test_vectors.md) -/

theorem test_encodeNumber_5 :
    (encodeNumber 5).toOption = some [false, false, true, false, true] := by decide
theorem test_serialise_5 :
    serialise ⟨.ok, 3, 5, 5⟩ = [false, false, true, false, true] := by decide
theorem test_refDecode_errors :
    (match refDecode [false, false, false] with | .error e => some e | .ok _ => none) = some .prefixCutoff ∧
    (match refDecode [false, false, true, false] with | .error e => some e | .ok _ => none) = some .offsetCutoff ∧
    (match refDecode [true, false, true] with | .error e => some e | .ok _ => none) = some .offsetCutoff := by decide

/-! ## Witnesses for the statements -/

/-- A quiet edge of width 4 that takes what the units hold. -/
def take4 : Inputs 4 := quietEdge 4 true true
/-- An edge of width 4 that asserts `rst`. -/
def rst4 : Inputs 4 := { take4 with rst := true }
/-- An edge of width 4 that offers the word 5 and the symbol DBIT1, and takes what the units hold. -/
def both4 : Inputs 4 := ⟨false, true, 5, true, true, 0b01, true⟩
/-- The same with both `out_ready` inputs 0. -/
def hold4 : Inputs 4 := { both4 with encOutReady := false, decOutReady := false }
/-- A state of width 4 in which both units hold a record. -/
def full4 (l : List (Inputs 4)) : State :=
  ⟨p4, ⟨⟨true, responseTo (W := 4) 5⟩⟩, { dec4 .scanPrefix 0 0 .ok with out := ⟨true, valueRecord 4 1⟩ }, l⟩

theorem witness_decode_encode : wellFormed 4 (.enc 4 5) = true ∧ (decode 4 ⟨.decIn, 2, 3⟩).toOption = some .drsv := by
  decide
theorem witness_prefix_free :
    gammaCode 5 <+: gammaCode 5 ∧ [1, 3].flatMap gammaCode = [1, 3].flatMap gammaCode ∧ ∀ x ∈ [1, 3], 1 ≤ x := by
  decide
theorem witness_complete_code : 1 ≤ 3 ∧ gammaCode 3 = List.replicate 1 false ++ [true] ++ [true] := by decide
theorem witness_reset_edge : (nextInputs (full4 [rst4])).rst = true := by decide
theorem witness_transfers :
    both4.rst = false ∧ inFire both4.rst both4.decInValid false both4.decOutReady = true ∧
    (decode 4 ⟨.decIn, 2, both4.decInSym⟩).toOption = some .dbit1 ∧
    inFire both4.rst both4.encInValid false both4.encOutReady = true ∧
    (decode 4 ⟨.encIn, 4, both4.encInData⟩).toOption = some (.enc 4 5) := by decide
theorem witness_one_unit_transfers :
    inFire false (ownTransferEdge 4 .dend).decInValid true (ownTransferEdge 4 .dend).decOutReady = true ∧
    inFire false (ownTransferEdge 4 .dend).encInValid true (ownTransferEdge 4 .dend).encOutReady = false ∧
    outFire false true (ownTransferEdge 4 .dend).encOutReady = false ∧
    inFire false (ownTransferEdge 4 (.enc 4 5)).encInValid true (ownTransferEdge 4 (.enc 4 5)).encOutReady = true ∧
    inFire false (ownTransferEdge 4 (.enc 4 5)).decInValid true (ownTransferEdge 4 (.enc 4 5)).decOutReady = false ∧
    outFire false true (ownTransferEdge 4 (.enc 4 5)).decOutReady = false := by decide
theorem witness_placed :
    decodeTableWordAt 4 8 3 = some .drsv ∧ decodeTableWordAt 4 0 15 = some (.enc 4 15) ∧
    decodeTableWordAt 4 0 16 = none := by decide
theorem witness_no_transfer :
    inFire take4.rst take4.encInValid true take4.encOutReady = false ∧
    inFire hold4.rst hold4.decInValid true hold4.decOutReady = false := by decide
theorem witness_edge_without_reset :
    (nextInputs (full4 [both4])).rst = false ∧ (nextTransfers (full4 [both4])).encIn.isSome = true ∧
    (nextTransfers (full4 [both4])).decIn = some .dbit1 ∧
    (nextTransfers (st4 .scanPrefix 0 0 .ok |>.setPending [both4])).decOut = none := by decide
theorem witness_stall :
    (full4 [hold4, hold4]).enc.out.ov = true ∧ (full4 [hold4, hold4]).dec.out.ov = true ∧
    ∀ i ∈ (full4 [hold4, hold4]).pending.take 3, i.rst = false ∧ i.encOutReady = false ∧ i.decOutReady = false := by
  decide
theorem witness_quiet :
    (nextInputs (full4 [])).rst = false ∧ nextTransfers (full4 []) = ⟨none, none, none, none⟩ ∧
    nextTransfers (full4 [hold4]) = ⟨none, none, none, none⟩ := by decide
theorem witness_offered :
    (full4 [hold4, both4]).pending[1]? = some both4 ∧ both4.encOutReady = true ∧ both4.decOutReady = true ∧
    (∀ j ∈ (full4 [hold4, both4]).pending.take 2,
      j.rst = false ∧ j.encInValid = true ∧ j.decInValid = true) ∧
    (State.resetOf p4).enc.out.ov = false := by decide
theorem witness_valid_inputs :
    1 ≤ (1#4).toInt ∧ 1 ≤ (7#4).toInt ∧ (0#4).toInt ≤ 0 ∧ (8#4).toInt ≤ 0 ∧ (4#4).toInt = (3#4).toInt + 1 ∧
    (responseTo 3#4).len ≠ (responseTo 4#4).len := by decide
theorem witness_other_width : 5 ≠ (State.resetOf p4).params.W := by decide
theorem witness_words : ∀ x ∈ [(-8 : Int), 0, 7], -(2 : Int) ^ (4 - 1) ≤ x ∧ x < (2 : Int) ^ (4 - 1) := by decide
theorem witness_run_without_reset :
    (∀ i ∈ (full4 [both4, take4]).pending.take 3, i.rst = false) ∧ 3 > (full4 [both4, take4]).pending.length := by
  decide
theorem witness_encoder_inv : EncoderInv (full4 []).enc ∧ ∃ t, step (full4 []) = .next t :=
  ⟨⟨by decide, by decide, by decide⟩, _, rfl⟩
/-- The premises of the symbol statements, at the boundary values of `cnt`. -/
theorem witness_symbol_states :
    ((st4 .scanPrefix 2 0 .ok).dec.cnt.toNat = LMAX 4 ∧ (st4 .scanPrefix 1 0 .ok).dec.cnt.toNat < LMAX 4 ∧
      (st4 .scanPrefix 0 0 .ok).dec.cnt.toNat = 0) ∧
    ((st4 .readOffset 1 3 .ok).dec.cnt.toNat = 1 ∧ 2 ≤ (st4 .readOffset 2 1 .ok).dec.cnt.toNat ∧
      2 * (st4 .readOffset 1 3 .ok).dec.acc.toNat + 1 ≤ XMAX 4) ∧
    (st4 .drain 0 0 .illegalSymbol).dec.fs = .drain := by decide
theorem witness_inv_scan : DecoderInv (dec4 .scanPrefix 2 0 .ok) :=
  ⟨by decide, fun h => absurd h (by decide), by decide, by decide, by decide⟩
theorem witness_inv_read : DecoderInv (dec4 .readOffset 1 3 .ok) :=
  ⟨by decide, fun _ => ⟨by decide, by decide, by decide, by decide, 2, by decide⟩, by decide, by decide, by decide⟩
theorem witness_inv_drain : DecoderInv (dec4 .drain 0 0 .illegalSymbol) :=
  ⟨by decide, fun h => absurd h (by decide), by decide, by decide, by decide⟩
theorem witness_inv_records : DecoderInv (full4 []).dec :=
  ⟨by decide, fun h => absurd h (by decide), by decide, by decide, by decide⟩
theorem witness_step_answers (fs : Fs) (cnt acc : Nat) (err : Status) : ∃ t, step (st4 fs cnt acc err) = .next t :=
  ⟨_, step_eq _ _ _ _⟩
theorem witness_drain_step :
    ∃ (e : Encoder 4) (d : Decoder 4), step (st4 .drain 0 0 .valueOverflow) = .next ⟨p4, e, d, []⟩ :=
  ⟨_, _, step_eq _ _ _ _⟩
theorem witness_run_from_reset : ∃ t, Sys2Proof.core.run 1 { State.resetOf p4 with pending := [both4] } = .next t :=
  ⟨_, run_succ 0 p4 _ _ _⟩
theorem witness_frame_boundary :
    atFrameBoundary (State.resetOf p4) ∧ atFrameBoundary (full4 []) ∧
    (full4 []).enc.out.ov = true ∧ (full4 []).dec.out.ov = true :=
  ⟨by unfold atFrameBoundary; decide, by unfold atFrameBoundary; decide, rfl, rfl⟩
theorem witness_fsm_fields :
    DecoderInv (State.resetOf p4).dec ∧ fsmView (State.resetOf p4).dec = .atBoundary ∧
    ∀ i ∈ ((State.resetOf p4).setPending [both4, take4]).pending.take 3, i.rst = false :=
  ⟨⟨by decide, fun h => absurd h (by decide), by decide, by decide, by decide⟩, by decide, by decide⟩
theorem witness_complete_codes : ([] : BitString).length ≤ LMAX 4 ∧ [false, true].length ≤ LMAX 4 := by decide
theorem witness_frame_symbols : ∀ i ∈ [Instr.dbit0, .dbit1, .drsv], isSymbol i = true ∧ i ≠ .dend := by decide
theorem witness_failed_frame :
    (st4 .drain 0 0 .valueOverflow).dec.fs = .drain ∧ (st4 .drain 0 0 .valueOverflow).dec.out.ov = false := by decide
theorem witness_reference_clauses :
    (∀ r ∈ codeBoundaries [true, false, false], leadingZeros r ≤ LMAX 4) ∧
    ∃ r ∈ codeBoundaries [true, false, false, false], LMAX 4 < leadingZeros r := by decide
theorem witness_round_trip : ∀ x ∈ [1, 7], 1 ≤ x ∧ x ≤ XMAX 4 := by decide
theorem witness_ok_frame : hwDecode (State.resetOf p4) [] = some (.ok []) := rfl
theorem witness_frame_prefix : [1, 3].flatMap gammaCode <+: [true, false, true, true, false] ∧ ∀ y ∈ [1, 3], 1 ≤ y := by
  decide
theorem witness_program :
    (∀ i, HostAction.transfer i ∈ [.stallE, .transfer (.enc 4 1), .transfer (.enc 4 2), .takeE] →
      wellFormed (State.resetOf p4).params.W i = true) ∧
    stallsMatched true true [.stallE, .transfer (.enc 4 1), .transfer (.enc 4 2), .takeE] = true ∧
    HostAction.reset ∉ [.stallE, .transfer (.enc 4 1), .transfer (.enc 4 2), .takeE] ∧
    HostAction.stallE ∉ [.transfer .dend, .idle, .reset] ∧ HostAction.stallD ∉ [.transfer .dend, .idle, .reset] := by
  refine ⟨fun i h => ?_, by decide, by decide, by decide, by decide⟩
  simp only [List.mem_cons, HostAction.transfer.injEq, List.not_mem_nil, reduceCtorEq, false_or, or_false] at h
  rcases h with rfl | rfl <;> rfl
/-- R121, k = 0 and k = 1 on an encoder that still holds the response to an earlier word. -/
theorem test_stale_response_is_not_counted :
    (hwEncodeSequence (State.resetOf p4 |>.setEnc ⟨⟨true, responseTo (W := 4) 0⟩⟩) []).toOption = some [] ∧
    (hwEncodeSequence (State.resetOf p4 |>.setEnc ⟨⟨true, responseTo (W := 4) 0⟩⟩) [3]).toOption =
      some [false, true, true] := by decide
theorem witness_unstalled : ∀ i ∈ [Instr.enc 4 5, .dbit1, .dend], wellFormed (State.resetOf p4).params.W i = true := by
  decide
theorem witness_trailing : 2 ≤ LMAX 4 ∧ [true].length < 2 := by decide
theorem witness_ports :
    [both4].map encPorts = [{ both4 with decInValid := false }].map encPorts ∧
    [both4].map decPorts = [{ both4 with encInValid := false }].map decPorts := by decide

end Sys2Proof.Tests
end

