-- ==== Sys2Proof/Proofs/StepOperation.lean ====
section
/-! PROOFS. Which operation a step runs (00_scope.md R13, R16): the payloads the ports carry always decode, a unit that
accepts a payload does `exec` of its operation, and a unit with no transfer leaves the state as it is. -/

namespace Sys2Proof.Machine

open Sys2Proof.Config

/-- R83: a symbol on `dec_in` always selects an operation. -/
@[simp] theorem decode_decIn (W : Nat) (y : BitVec 2) : decode W ⟨.decIn, 2, y⟩ = .ok (decodeSym y) := by
  simp [decode]

/-- R83: a word of the port's width on `enc_in` always selects `ENC`. -/
@[simp] theorem decode_encIn (W : Nat) (x : BitVec W) : decode W ⟨.encIn, W, x⟩ = .ok (.enc W x) := by
  simp [decode]

section
variable {w : Nat} {i : Inputs w} {s : State}

theorem encEdge_of_inFire (hrst : i.rst = false)
    (hin : inFire i.rst i.encInValid s.enc.out.ov i.encOutReady = true) :
    encEdge i s = exec (.enc w i.encInData) s := by
  rw [hrst] at hin
  rw [encEdge, if_pos hin]

theorem decEdge_of_inFire (hrst : i.rst = false)
    (hin : inFire i.rst i.decInValid s.dec.out.ov i.decOutReady = true) :
    decEdge i s = exec (decodeSym i.decInSym) s := by
  rw [hrst] at hin
  rw [decEdge, if_pos hin]

theorem encEdge_of_no_transfer (hrst : i.rst = false)
    (hin : inFire i.rst i.encInValid s.enc.out.ov i.encOutReady = false)
    (hout : outFire i.rst s.enc.out.ov i.encOutReady = false) : encEdge i s = .next s := by
  rw [hrst] at hin hout
  simp [encEdge, hin, hout]

theorem decEdge_of_no_transfer (hrst : i.rst = false)
    (hin : inFire i.rst i.decInValid s.dec.out.ov i.decOutReady = false)
    (hout : outFire i.rst s.dec.out.ov i.decOutReady = false) : decEdge i s = .next s := by
  rw [hrst] at hin hout
  simp [decEdge, hin, hout]
end

variable {p : Params} {e : Encoder p.W} {d : Decoder p.W} {i : Inputs p.W} {l : List (Inputs p.W)}

/-- R13: a step under given inputs without reset is the two units' parts of the edge, on the list without that edge. -/
theorem step_run (hrst : i.rst = false) :
    step ⟨p, e, d, i :: l⟩ = andThen (encEdge i ⟨p, e, d, l⟩) (decEdge i) :=
  edge_run hrst ⟨p, e, d, l⟩

/-- The encoder's part of the edge leaves the decoder alone (R16), so the decoder's handshake is still that of `d`. -/
theorem step_of_decIn (hrst : i.rst = false)
    (hin : inFire i.rst i.decInValid d.out.ov i.decOutReady = true) :
    step ⟨p, e, d, i :: l⟩ = andThen (encEdge i ⟨p, e, d, l⟩) (exec (decodeSym i.decInSym)) := by
  rw [step_run hrst, encEdge_eq ⟨p, e, d, l⟩ hrst]
  exact decEdge_of_inFire (s := ⟨p, nextEncoder i e, d, l⟩) hrst hin

theorem step_of_encIn (hrst : i.rst = false)
    (hin : inFire i.rst i.encInValid e.out.ov i.encOutReady = true) :
    step ⟨p, e, d, i :: l⟩ = andThen (exec (.enc p.W i.encInData) ⟨p, e, d, l⟩) (decEdge i) := by
  rw [step_run hrst, encEdge_of_inFire (s := ⟨p, e, d, l⟩) hrst hin]

/-- Only the decoder's channels transfer. -/
theorem step_of_decIn_alone (hrst : i.rst = false)
    (hin : inFire i.rst i.decInValid d.out.ov i.decOutReady = true)
    (hencIn : inFire i.rst i.encInValid e.out.ov i.encOutReady = false)
    (hencOut : outFire i.rst e.out.ov i.encOutReady = false) :
    step ⟨p, e, d, i :: l⟩ = exec (decodeSym i.decInSym) ⟨p, e, d, l⟩ := by
  rw [step_of_decIn hrst hin, encEdge_of_no_transfer (s := ⟨p, e, d, l⟩) hrst hencIn hencOut, andThen_next]

/-- Only the encoder's channels transfer. `ENC` leaves the decoder alone (R16), so its part of the edge is still idle. -/
theorem step_of_encIn_alone (hrst : i.rst = false)
    (hin : inFire i.rst i.encInValid e.out.ov i.encOutReady = true)
    (hdecIn : inFire i.rst i.decInValid d.out.ov i.decOutReady = false)
    (hdecOut : outFire i.rst d.out.ov i.decOutReady = false) :
    step ⟨p, e, d, i :: l⟩ = exec (.enc p.W i.encInData) ⟨p, e, d, l⟩ := by
  rw [step_of_encIn hrst hin, exec_enc_eq ⟨p, e, d, l⟩]
  exact decEdge_of_no_transfer (s := ⟨p, ⟨⟨true, responseTo i.encInData⟩⟩, d, l⟩) hrst hdecIn hdecOut

/-- Settles O9: the payload decodes to the operation that the unit's part of the edge runs, and the other unit's part
touches nothing that the handshake reads. -/
theorem stepRunsTransferredOperation : Obligations.StepRunsTransferredOperation := by
  intro p e d i l op hrst
  constructor
  · intro hin hop
    obtain rfl : decodeSym i.decInSym = op := by simpa using hop
    exact ⟨step_of_decIn hrst hin, step_of_decIn_alone hrst hin⟩
  · intro hin hop
    obtain rfl : .enc p.W i.encInData = op := by simpa using hop
    exact ⟨step_of_encIn hrst hin, step_of_encIn_alone hrst hin⟩

end Sys2Proof.Machine
end

section
/-! PROOFS. The decoder follows its state-by-symbol table (41_decoder.md R158), the invariants of both units hold along
every run (10_state.md R33, 30_encoding.md R72, R75), and the decoder's fields tell what of the symbols is still open. -/

namespace Sys2Proof.Machine

open Sys2Proof.Config

/-! ## The decoder's invariant in two halves: the FSM fields as numbers, and the record held -/

/-- R33, clauses 2 to 4, on the fields as numbers, one constructor per state of the FSM. In `read`, `k` offset bits have
been read, so the code being read has `L = c + k` zeros. -/
inductive FsmInv (lmax : Nat) : FsmView → Prop
  | scan {n : Nat} (hn : n ≤ lmax) : FsmInv lmax ⟨.scanPrefix, n, 0, .ok⟩
  | read {c k a : Nat} (hc : 1 ≤ c) (hk : c + k ≤ lmax) (hlo : 2 ^ k ≤ a) (hhi : a < 2 ^ (k + 1)) :
      FsmInv lmax ⟨.readOffset, c, a, .ok⟩
  | drain {err : Status} (herr : err = .valueOverflow ∨ err = .illegalSymbol) : FsmInv lmax ⟨.drain, 0, 0, err⟩

/-- R33, clause 5. -/
structure HeldInv {W : Nat} (r : OutReg (Record W)) : Prop where
  value : r.ov = true → r.held.kind = .value →
    r.held.status = .ok ∧ 1 ≤ r.held.data.toNat ∧ r.held.data.toNat ≤ XMAX W
  done : r.ov = true → r.held.kind = .done → r.held.data.toNat = 0 ∧ r.held.status ≠ .invalidInput

section
variable {W : Nat} {D : Decoder W}

theorem fsmView_eq_iff {fs : Fs} {c a : Nat} {err : Status} :
    fsmView D = ⟨fs, c, a, err⟩ ↔ D.fs = fs ∧ D.cnt.toNat = c ∧ D.acc.toNat = a ∧ D.err = err := by
  simp [fsmView]

theorem DecoderInv.fsmInv (h : DecoderInv D) : FsmInv (LMAX W) (fsmView D) := by
  rcases hfs : D.fs with _ | _ | _
  · obtain ⟨herr, hacc, hcnt⟩ := h.scan hfs
    rw [fsmView_eq_iff.mpr ⟨hfs, rfl, hacc, herr⟩]
    exact .scan hcnt
  · obtain ⟨herr, hpos, -, -, L, hL, hLmax, hlo, hhi⟩ := h.read hfs
    rw [fsmView_eq_iff.mpr ⟨hfs, rfl, rfl, herr⟩]
    exact .read hpos (by omega) hlo hhi
  · obtain ⟨herr, hcnt, hacc⟩ := h.drain hfs
    rw [fsmView_eq_iff.mpr ⟨hfs, hcnt, hacc, rfl⟩]
    exact .drain herr

theorem decoderInv_of_halves (hfsm : FsmInv (LMAX W) (fsmView D)) (hheld : HeldInv D.out) : DecoderInv D := by
  generalize hv : fsmView D = v at hfsm
  cases hfsm with
  | scan hn =>
    obtain ⟨hfs, hcnt, hacc, herr⟩ := fsmView_eq_iff.mp hv
    exact ⟨fun _ => ⟨herr, hacc, hcnt.trans_le hn⟩, by simp [hfs], by simp [hfs], hheld.value, hheld.done⟩
  | @read c k a hc hk hlo hhi =>
    obtain ⟨hfs, rfl, rfl, herr⟩ := fsmView_eq_iff.mp hv
    have hL : D.cnt.toNat + k - D.cnt.toNat = k := Nat.add_sub_cancel_left ..
    have hacc : 1 ≤ D.acc.toNat := Nat.one_le_two_pow.trans hlo
    refine ⟨by simp [hfs], fun _ => ⟨herr, hc, by omega, hacc, D.cnt.toNat + k, by omega, hk, ?_⟩, by simp [hfs],
      hheld.value, hheld.done⟩
    rw [hL]
    exact ⟨hlo, hhi⟩
  | drain herr =>
    obtain ⟨hfs, hcnt, hacc, rfl⟩ := fsmView_eq_iff.mp hv
    exact ⟨by simp [hfs], by simp [hfs], fun _ => ⟨herr, hcnt, hacc⟩, hheld.value, hheld.done⟩

theorem DecoderInv.heldInv (h : DecoderInv D) : HeldInv D.out := ⟨h.value, h.done⟩

/-- An empty output register offers nothing, so nothing is asked of the record left in it. -/
theorem heldInv_of_empty {r : OutReg (Record W)} (h : r.ov = false) : HeldInv r := by
  constructor <;> simp [h]

theorem HeldInv.outUpdate_none {r : OutReg (Record W)} (h : HeldInv r) (taken : Bool) :
    HeldInv (outUpdate none taken r) := by
  cases taken with
  | false => exact h
  | true => exact heldInv_of_empty rfl
end

/-! ## The table keeps the invariant -/

section
variable {lmax : Nat} {v : FsmView}

theorem fsmInv_atBoundary : FsmInv lmax .atBoundary := .scan (Nat.zero_le lmax)

/-- R143, R145: an offset bit completes the code or doubles the accumulator and adds itself. -/
theorem fsmInv_tableOffsetBit {c k a : Nat} (hc : 1 ≤ c) (hk : c + k ≤ lmax) (hlo : 2 ^ k ≤ a)
    (hhi : a < 2 ^ (k + 1)) (b : Bool) : FsmInv lmax (tableOffsetBit ⟨.readOffset, c, a, .ok⟩ b).1 := by
  by_cases hlast : c = 1
  · simpa [tableOffsetBit, hlast] using FsmInv.scan (Nat.zero_le lmax)
  · have hb := b.toNat_le
    simp only [tableOffsetBit, hlast, if_false]
    exact .read (k := k + 1) (by omega) (by omega) (by omega) (by omega)

theorem fsmInv_fsmTable (h : FsmInv lmax v) (sym : Instr) : FsmInv lmax (fsmTable lmax v sym).1 := by
  cases h with
  | @scan n hn =>
    cases sym with
    | enc => exact .scan hn
    | dbit0 =>
      by_cases hmax : n = lmax
      · simpa [fsmTable, hmax] using FsmInv.drain (.inl rfl)
      · simpa [fsmTable, hmax] using FsmInv.scan (lmax := lmax) (by omega)
    | dbit1 =>
      by_cases hzero : n = 0
      · simpa [fsmTable, hzero] using FsmInv.scan (Nat.zero_le lmax)
      · simpa [fsmTable, hzero] using
          FsmInv.read (k := 0) (Nat.pos_of_ne_zero hzero) hn le_rfl (by omega)
    | dend => exact fsmInv_atBoundary
    | drsv => exact .drain (.inr rfl)
  | read hc hk hlo hhi =>
    cases sym with
    | enc => exact .read hc hk hlo hhi
    | dbit0 => exact fsmInv_tableOffsetBit hc hk hlo hhi false
    | dbit1 => exact fsmInv_tableOffsetBit hc hk hlo hhi true
    | dend => exact fsmInv_atBoundary
    | drsv => exact .drain (.inr rfl)
  | drain herr =>
    cases sym with
    | enc | dbit0 | dbit1 | drsv => exact .drain herr
    | dend => exact fsmInv_atBoundary

/-- R74, R75: what a record of the table may be: an integer from 1 to `xmax`, or an outcome of a frame. -/
def DecRecord.InRange (xmax : Nat) : DecRecord → Prop
  | .value x => 1 ≤ x ∧ x ≤ xmax
  | .done outcome => outcome ≠ .invalidInput

/-- R143, R160: the last offset bit gives an integer of at most `lmax + 1` bits. -/
theorem tableOffsetBit_inRange {c k a : Nat} {b : Bool} {r : DecRecord} (hk : c + k ≤ lmax) (hlo : 2 ^ k ≤ a)
    (hhi : a < 2 ^ (k + 1)) (hr : (tableOffsetBit ⟨.readOffset, c, a, .ok⟩ b).2 = some r) :
    r.InRange (2 ^ (lmax + 1) - 1) := by
  by_cases hlast : c = 1
  · obtain rfl : .value (2 * a + b.toNat) = r := by simpa [tableOffsetBit, hlast] using hr
    have hb := b.toNat_le
    have hpos : 1 ≤ 2 ^ k := Nat.one_le_two_pow
    have hmax : 2 ^ (k + 1 + 1) ≤ 2 ^ (lmax + 1) := Nat.pow_le_pow_right (by omega) (by omega)
    rw [Nat.pow_succ'] at hmax
    exact ⟨by omega, by omega⟩
  · simp [tableOffsetBit, hlast] at hr

theorem fsmTable_inRange (h : FsmInv lmax v) {sym : Instr} {r : DecRecord}
    (hr : (fsmTable lmax v sym).2 = some r) : r.InRange (2 ^ (lmax + 1) - 1) := by
  cases h with
  | @scan n hn =>
    cases sym with
    | enc | drsv => cases hr
    | dbit0 =>
      by_cases hmax : n = lmax <;> simp [fsmTable, hmax] at hr
    | dbit1 =>
      by_cases hzero : n = 0
      · obtain rfl : .value 1 = r := by simpa [fsmTable, hzero] using hr
        have hmax : 2 ^ 1 ≤ 2 ^ (lmax + 1) := Nat.pow_le_pow_right (by omega) (by omega)
        exact ⟨le_rfl, by omega⟩
      · simp [fsmTable, hzero] at hr
    | dend =>
      cases hr
      by_cases hzero : n = 0 <;> simp [DecRecord.InRange, hzero]
  | read hc hk hlo hhi =>
    cases sym with
    | enc | drsv => cases hr
    | dbit0 => exact tableOffsetBit_inRange hk hlo hhi hr
    | dbit1 => exact tableOffsetBit_inRange hk hlo hhi hr
    | dend =>
      cases hr
      simp [DecRecord.InRange]
  | drain herr =>
    cases sym with
    | enc | dbit0 | dbit1 | drsv => cases hr
    | dend =>
      cases hr
      rcases herr with rfl | rfl <;> simp [DecRecord.InRange]
end

/-! ## The machine follows the table -/

/-- R74: the record that the decoder loads for a record of the table. -/
def recordOf (W : Nat) : DecRecord → Record W
  | .value x => valueRecord W x
  | .done outcome => doneRecord W outcome

section
variable {W : Nat} {D : Decoder W}

theorem heldInv_recordOf {r : DecRecord} (h : r.InRange (XMAX W)) : HeldInv ⟨true, recordOf W r⟩ := by
  cases r with
  | value x =>
    obtain ⟨hpos, hmax⟩ := h
    have hlt : x < 2 ^ W := (lt_two_pow_AW hmax).trans_le (Nat.pow_le_pow_right (by omega) (by simp [AW]))
    have hx : (BitVec.ofNat W x).toNat = x := by rw [BitVec.toNat_ofNat, Nat.mod_eq_of_lt hlt]
    exact ⟨fun _ _ => ⟨rfl, by simpa only [recordOf, valueRecord, hx] using ⟨hpos, hmax⟩⟩, nofun⟩
  | done outcome => exact ⟨nofun, fun _ _ => ⟨by simp [recordOf, doneRecord], h⟩⟩

theorem heldInv_emitAtTransfer {produced : Option DecRecord} (h : ∀ r ∈ produced, r.InRange (XMAX W))
    (out : OutReg (Record W)) : HeldInv (emitAtTransfer (produced.map (recordOf W)) out) := by
  cases produced with
  | none =>
    rw [Option.map_none, emitAtTransfer_none]
    exact heldInv_of_empty rfl
  | some r => exact heldInv_recordOf (h r rfl)

/-- R158: the record of the table's row is the one that the symbol loads. -/
theorem afterSymbol_out {i : Instr} (hi : isSymbol i = true) :
    (afterSymbol i D).out =
      emitAtTransfer ((fsmTable (LMAX W) (fsmView D) i).2.map (recordOf W)) D.out := by
  obtain ⟨fs, cnt, acc, err, out⟩ := D
  cases i with
  | enc => cases hi
  | dbit0 =>
    cases fs with
    | scanPrefix => by_cases h : cnt.toNat = LMAX W <;> simp [afterSymbol, fsmTable, fsmView, h]
    | readOffset =>
      by_cases h : cnt.toNat = 1 <;>
        simp [afterSymbol, afterOffsetBit, fsmTable, tableOffsetBit, fsmView, recordOf, shiftIn, h]
    | drain => simp [afterSymbol, fsmTable, fsmView]
  | dbit1 =>
    cases fs with
    | scanPrefix => by_cases h : cnt.toNat = 0 <;> simp [afterSymbol, fsmTable, fsmView, recordOf, h]
    | readOffset =>
      by_cases h : cnt.toNat = 1 <;>
        simp [afterSymbol, afterOffsetBit, fsmTable, tableOffsetBit, fsmView, recordOf, shiftIn, h]
    | drain => simp [afterSymbol, fsmTable, fsmView]
  | dend => cases fs <;> rfl
  | drsv => cases fs <;> simp [afterSymbol, fsmTable, fsmView]

/-- R145: while the invariant holds, the accumulator has room for every offset bit but the last. -/
theorem fsmView_afterOffsetBit {c k a : Nat} (hv : fsmView D = ⟨.readOffset, c, a, .ok⟩) (hc : 1 ≤ c)
    (hk : c + k ≤ LMAX W) (hhi : a < 2 ^ (k + 1)) (b : Bool) :
    fsmView (afterOffsetBit D b) = (tableOffsetBit ⟨.readOffset, c, a, .ok⟩ b).1 := by
  obtain ⟨hfs, rfl, rfl, herr⟩ := fsmView_eq_iff.mp hv
  by_cases hlast : D.cnt.toNat = 1
  · simp [afterOffsetBit, tableOffsetBit, hlast, fsmView, herr]
  · have hb := b.toNat_le
    have hroom : 2 ^ (k + 1 + 1) ≤ 2 ^ AW W := Nat.pow_le_pow_right (by omega) (by simp only [AW, LMAX] at *; omega)
    rw [Nat.pow_succ'] at hroom
    have hacc : (2 * D.acc.toNat + b.toNat) % 2 ^ AW W = 2 * D.acc.toNat + b.toNat :=
      Nat.mod_eq_of_lt (by omega)
    simp only [afterOffsetBit, tableOffsetBit, hlast, if_false, fsmView_eq_iff]
    exact ⟨hfs, cnt_sub_one hc, by simpa [shiftIn] using hacc, herr⟩

/-- R158: the fields of the table's row are those that the symbol leaves. -/
theorem fsmView_afterSymbol (h : FsmInv (LMAX W) (fsmView D)) (i : Instr) :
    fsmView (afterSymbol i D) = (fsmTable (LMAX W) (fsmView D) i).1 := by
  generalize hv : fsmView D = v at h ⊢
  obtain ⟨fs, cnt, acc, err, out⟩ := D
  cases h with
  | scan hn =>
    obtain ⟨rfl, rfl, hacc, rfl⟩ := fsmView_eq_iff.mp hv
    cases i with
    | enc => exact hv
    | dbit0 =>
      by_cases hmax : cnt.toNat = LMAX W
      · simp [afterSymbol, fsmTable, fsmView, hmax]
      · simp only [afterSymbol, fsmTable, hmax, if_false]
        exact fsmView_eq_iff.mpr ⟨rfl, cnt_add_one (lt_of_le_of_ne hn hmax), hacc, rfl⟩
    | dbit1 =>
      by_cases hzero : cnt.toNat = 0
      · simp only [afterSymbol, fsmTable, hzero, if_true]
        exact fsmView_eq_iff.mpr ⟨rfl, hzero, hacc, rfl⟩
      · have hroom : 1 ≤ AW W := by simp only [AW, LMAX] at *; omega
        simp only [afterSymbol, fsmTable, hzero, if_false]
        exact fsmView_eq_iff.mpr ⟨rfl, rfl, toNat_one_of_pos hroom, rfl⟩
    | dend | drsv => simp [afterSymbol, fsmTable, fsmView]
  | read hc hk _ hhi =>
    obtain ⟨rfl, -⟩ := fsmView_eq_iff.mp hv
    cases i with
    | enc => exact hv
    | dbit0 => exact fsmView_afterOffsetBit hv hc hk hhi false
    | dbit1 => exact fsmView_afterOffsetBit hv hc hk hhi true
    | dend | drsv => simp [afterSymbol, fsmTable, fsmView]
  | drain =>
    obtain ⟨rfl, -⟩ := fsmView_eq_iff.mp hv
    cases i with
    | enc | dbit0 | dbit1 | drsv => exact hv
    | dend => simp [afterSymbol, fsmTable, fsmView]

/-! ## The decoder's invariant is kept -/

theorem decoderInv_reset (W : Nat) : DecoderInv (Decoder.reset W) :=
  decoderInv_of_halves (by simpa [fsmView, Decoder.reset] using FsmInv.scan (Nat.zero_le (LMAX W)))
    (heldInv_of_empty rfl)

theorem decoderInv_afterSymbol (hW : 2 ≤ W) (h : DecoderInv D) {i : Instr} (hi : isSymbol i = true) :
    DecoderInv (afterSymbol i D) := by
  have hmax : 2 ^ (LMAX W + 1) - 1 = XMAX W := by
    rw [show LMAX W + 1 = W - 1 by simp only [LMAX]; omega]
  refine decoderInv_of_halves ?_ ?_
  · rw [fsmView_afterSymbol h.fsmInv]
    exact fsmInv_fsmTable h.fsmInv i
  · rw [afterSymbol_out hi]
    exact heldInv_emitAtTransfer (fun r hr => hmax ▸ fsmTable_inRange h.fsmInv hr) D.out

variable {i : Inputs W}

theorem nextDecoder_of_rst (hrst : i.rst = true) : nextDecoder i D = Decoder.reset W := by
  simp [nextDecoder, hrst]

/-- The symbol that the decoder accepts at an edge, if any (R52). -/
def acceptedSymbol (i : Inputs W) (D : Decoder W) : Option Instr :=
  if inFire i.rst i.decInValid D.out.ov i.decOutReady then some (decodeSym i.decInSym) else none

theorem nextTransfers_decIn (s : State) : (nextTransfers s).decIn = acceptedSymbol (nextInputs s) s.dec := rfl

theorem isSymbol_of_acceptedSymbol {sym : Instr} (h : acceptedSymbol i D = some sym) : isSymbol sym = true := by
  obtain ⟨-, rfl⟩ : _ ∧ decodeSym i.decInSym = sym := by simpa [acceptedSymbol] using h
  exact isSymbol_decodeSym _

theorem nextDecoder_of_symbol (hrst : i.rst = false) {sym : Instr} (h : acceptedSymbol i D = some sym) :
    nextDecoder i D = afterSymbol sym D := by
  obtain ⟨hin, rfl⟩ : _ ∧ decodeSym i.decInSym = sym := by simpa [acceptedSymbol] using h
  simp [nextDecoder, hrst, ← hin]

theorem nextDecoder_of_no_symbol (hrst : i.rst = false) (h : acceptedSymbol i D = none) :
    nextDecoder i D = { D with out := outUpdate none (outFire i.rst D.out.ov i.decOutReady) D.out } := by
  have hin : inFire i.rst i.decInValid D.out.ov i.decOutReady = false := by simpa [acceptedSymbol] using h
  rw [nextDecoder, if_neg (by simp [hrst]), if_neg (by simp [hin])]

theorem decoderInv_nextDecoder (hW : 2 ≤ W) (h : DecoderInv D) (i : Inputs W) : DecoderInv (nextDecoder i D) := by
  cases hrst : i.rst with
  | true =>
    rw [nextDecoder_of_rst hrst]
    exact decoderInv_reset W
  | false =>
    cases hsym : acceptedSymbol i D with
    | some sym =>
      rw [nextDecoder_of_symbol hrst hsym]
      exact decoderInv_afterSymbol hW h (isSymbol_of_acceptedSymbol hsym)
    | none =>
      rw [nextDecoder_of_no_symbol hrst hsym]
      exact decoderInv_of_halves h.fsmInv (h.heldInv.outUpdate_none _)
end

/-- A step answers one state only. -/
theorem step_eq_next_iff {p : Params} {e : Encoder p.W} {d : Decoder p.W} {l : List (Inputs p.W)} {t : State} :
    step ⟨p, e, d, l⟩ = .next t ↔
      t = ⟨p, nextEncoder (l.headD (idleInputs p.W)) e, nextDecoder (l.headD (idleInputs p.W)) d, l.tail⟩ := by
  rw [step_eq, Host.Outcome.next.injEq, eq_comm]

/-- Settles O37: a step leaves `nextDecoder` of the edge's inputs, which keeps the invariant. -/
theorem stepKeepsDecoderInvariant : Obligations.StepKeepsDecoderInvariant := by
  rintro ⟨p, e, d, l⟩ t h hstep
  obtain rfl := step_eq_next_iff.mp hstep
  exact decoderInv_nextDecoder p.two_le_W h _

/-! ## The encoder's responses (40_encoder.md R102, R106) and its invariant -/

/-- The low `m + 1` bits of `x` have the width of the low `m` bits, unless bit `m` is a 1. -/
theorem bitlen_mod_two_pow_succ (x m : Nat) :
    bitlen (x % 2 ^ (m + 1)) = if x.testBit m then m + 1 else bitlen (x % 2 ^ m) := by
  have hlow : x % 2 ^ m < 2 ^ m := Nat.mod_lt _ (by positivity)
  rw [Nat.mod_pow_succ, ← Nat.toNat_testBit]
  cases x.testBit m with
  | false => simp
  | true =>
    have hlog : Nat.log2 (x % 2 ^ m + 2 ^ m) = m := by
      rw [Nat.log2_eq_iff (by omega)]
      omega
    simp [bitlen_of_pos (show 1 ≤ x % 2 ^ m + 2 ^ m by omega), hlog]

/-- R102: what the scan of the first `m` bits finds. -/
theorem foldl_leadingOne {W : Nat} (d : BitVec W) (m : Nat) :
    (List.range m).foldl (fun N i => if d.getLsbD i then i + 1 else N) 0 = bitlen (d.toNat % 2 ^ m) := by
  induction m with
  | zero => simp [Nat.mod_one]
  | succ m ih => rw [List.range_succ, List.foldl_append, ih, bitlen_mod_two_pow_succ]; rfl

section
variable {W : Nat} {d : BitVec W}

/-- R101: a valid word is below `2^(W-1)`, its sign bit 0. -/
theorem toNat_bounds_of_valid (h : validInput d = true) : 1 ≤ d.toNat ∧ d.toNat < 2 ^ (W - 1) := by
  have hpos : 1 ≤ d.toInt := of_decide_eq_true h
  have hlt : 2 * d.toNat < 2 ^ W := BitVec.toInt_pos_iff.mp (by omega)
  rw [BitVec.toInt_eq_toNat_of_lt hlt] at hpos
  have hW : W ≠ 0 := by
    rintro rfl
    omega
  have hdouble : 2 * 2 ^ (W - 1) = 2 ^ W := mul_pow_sub_one hW 2
  omega

theorem widthOf_of_valid (h : validInput d = true) : widthOf d = bitlen d.toNat := by
  rw [widthOf, foldl_leadingOne, Nat.mod_eq_of_lt (toNat_bounds_of_valid h).2]

theorem bitlen_bounds_of_valid (h : validInput d = true) : 1 ≤ bitlen d.toNat ∧ bitlen d.toNat ≤ NMAX W := by
  obtain ⟨hpos, hlt⟩ := toNat_bounds_of_valid h
  exact ⟨by simp [bitlen_of_pos hpos], bitlen_le_iff.mpr hlt⟩

/-- R103: the zeros, the leading 1 and the offset, read as a number. -/
theorem toNat_assembleCode {N : Nat} (hpos : 1 ≤ N) (hmax : N ≤ CW W) :
    (assembleCode d N).toNat = 2 ^ (N - 1) + d.toNat % 2 ^ (N - 1) := by
  have hlow : d.toNat % 2 ^ (N - 1) < 2 ^ (N - 1) := Nat.mod_lt _ (by positivity)
  have hN : 2 * 2 ^ (N - 1) = 2 ^ N := mul_pow_sub_one (by omega) 2
  have hfits : 2 ^ N ≤ 2 ^ CW W := Nat.pow_le_pow_right (by omega) hmax
  have hcode : ((0#(N - 1) ++ 1#1) ++ offsetOf d N).toNat = 2 ^ (N - 1) + d.toNat % 2 ^ (N - 1) := by
    simp only [BitVec.toNat_append, offsetOf, BitVec.extractLsb'_toNat, Nat.shiftRight_zero]
    rw [← Nat.shiftLeft_add_eq_or_of_lt hlow]
    simp [Nat.shiftLeft_eq]
  rw [assembleCode, BitVec.toNat_setWidth, hcode, Nat.mod_eq_of_lt (by omega)]

/-- R106: the fields of an OK response as numbers; none of them wraps in its port. -/
theorem okResponse_fields (hW : 2 ≤ W) (h : validInput d = true) :
    (okResponse d).n.toNat = bitlen d.toNat ∧ (okResponse d).len.toNat = 2 * bitlen d.toNat - 1 ∧
    (okResponse d).code.toNat = 2 ^ (bitlen d.toNat - 1) + d.toNat % 2 ^ (bitlen d.toNat - 1) := by
  obtain ⟨hpos, hmax⟩ := bitlen_bounds_of_valid h
  have hn : bitlen d.toNat < 2 ^ NW W := hmax.trans_lt (lt_two_pow_bitlen _)
  have hlen : 2 * bitlen d.toNat - 1 < 2 ^ LENW W :=
    lt_of_le_of_lt (by simp only [NMAX] at hmax; omega) (lt_two_pow_bitlen (2 * W - 3))
  have hcode : bitlen d.toNat ≤ CW W := by simp only [NMAX, CW] at *; omega
  simp only [okResponse, widthOf_of_valid h, BitVec.toNat_ofNat]
  exact ⟨Nat.mod_eq_of_lt hn, Nat.mod_eq_of_lt hlen, toNat_assembleCode hpos hcode⟩

theorem encoderInv_of_empty {E : Encoder W} (h : E.out.ov = false) : EncoderInv E := by
  constructor <;> simp [h]

theorem encoderInv_okResponse (hW : 2 ≤ W) (h : validInput d = true) : EncoderInv ⟨⟨true, okResponse d⟩⟩ := by
  obtain ⟨hpos, hmax⟩ := bitlen_bounds_of_valid h
  obtain ⟨hn, hlen, hcode⟩ := okResponse_fields hW h
  have hlow : d.toNat % 2 ^ (bitlen d.toNat - 1) < 2 ^ (bitlen d.toNat - 1) := Nat.mod_lt _ (by positivity)
  have hN : 2 * 2 ^ (bitlen d.toNat - 1) = 2 ^ bitlen d.toNat := mul_pow_sub_one (by omega) 2
  refine ⟨fun _ => .inl rfl, fun _ _ => ?_, nofun⟩
  rw [hn, hlen, hcode]
  exact ⟨hpos, hmax, rfl, by omega, by omega⟩

theorem encoderInv_responseTo (hW : 2 ≤ W) (d : BitVec W) : EncoderInv ⟨⟨true, responseTo d⟩⟩ := by
  cases h : validInput d with
  | true => simpa [responseTo, h] using encoderInv_okResponse hW h
  | false =>
    simp only [responseTo, h, if_false, Bool.false_eq_true]
    exact ⟨fun _ => .inr rfl, nofun, fun _ _ => by simp [invalidResponse]⟩

theorem encoderInv_nextEncoder (hW : 2 ≤ W) {E : Encoder W} (h : EncoderInv E) (i : Inputs W) :
    EncoderInv (nextEncoder i E) := by
  rw [nextEncoder]
  split
  · exact encoderInv_of_empty rfl
  · split
    · exact encoderInv_responseTo hW _
    · cases outFire i.rst E.out.ov i.encOutReady with
      | true => exact encoderInv_of_empty rfl
      | false => exact h
end

/-! ## Reset, runs and quiet edges -/

/-- Settles O36: both output registers are empty, and the decoder is at a code boundary with no zeros counted. -/
theorem resetMeetsInvariant : Obligations.ResetMeetsInvariant :=
  fun p => ⟨decoderInv_reset p.W, encoderInv_of_empty rfl⟩

theorem inv_step {s t : State} (h : Inv s) (hstep : step s = .next t) : Inv t := by
  obtain ⟨p, e, d, l⟩ := s
  obtain rfl := step_eq_next_iff.mp hstep
  exact ⟨decoderInv_nextDecoder p.two_le_W h.dec _, encoderInv_nextEncoder p.two_le_W h.enc _⟩

/-- What every step keeps holds at the end of every run. -/
theorem run_keeps {P : State → Prop} (hstep : ∀ s t, P s → step s = .next t → P t) {k : Nat} {s t : State}
    (hs : P s) (hrun : Sys2Proof.core.run k s = .next t) : P t := by
  induction k generalizing s with
  | zero =>
    cases hrun
    exact hs
  | succ k ih =>
    obtain ⟨p, e, d, l⟩ := s
    rw [run_succ] at hrun
    exact ih (hstep _ _ hs (step_eq p e d l)) hrun

/-- Settles O38: the invariant of both units holds at reset, whatever inputs are to come, and every step keeps it. -/
theorem invariantHoldsInEveryRun : Obligations.InvariantHoldsInEveryRun := by
  intro p l k t hrun
  have hreset : Inv { State.resetOf p with pending := l } :=
    ⟨(resetMeetsInvariant p).dec, (resetMeetsInvariant p).enc⟩
  exact run_keeps (fun _ _ => inv_step) hreset hrun

theorem nextEncoder_of_quiet {W : Nat} {i : Inputs W} {E : Encoder W} (hrst : i.rst = false)
    (hin : inFire i.rst i.encInValid E.out.ov i.encOutReady = false)
    (hout : outFire i.rst E.out.ov i.encOutReady = false) : nextEncoder i E = E := by
  rw [nextEncoder, if_neg (by simp [hrst]), if_neg (by simp [hin]), hout]
  rfl

theorem nextDecoder_of_quiet {W : Nat} {i : Inputs W} {D : Decoder W} (hrst : i.rst = false)
    (hin : acceptedSymbol i D = none) (hout : outFire i.rst D.out.ov i.decOutReady = false) : nextDecoder i D = D := by
  rw [nextDecoder_of_no_symbol hrst hin, hout]
  rfl

/-- Settles O15: without reset each unit changes only at a transfer on its own channels. -/
theorem quietEdgeChangesNothing : Obligations.QuietEdgeChangesNothing := by
  rintro ⟨p, e, d, l⟩ hrst hquiet
  obtain ⟨hencIn, hencOut, hdecIn, hdecOut⟩ := Transfers.mk.inj hquiet
  simp only [ite_eq_right_iff, reduceCtorEq, imp_false, Bool.not_eq_true] at hencIn hencOut hdecOut
  have henc : nextEncoder (l.headD (idleInputs p.W)) e = e := nextEncoder_of_quiet hrst hencIn hencOut
  have hdec : nextDecoder (l.headD (idleInputs p.W)) d = d := nextDecoder_of_quiet hrst hdecIn hdecOut
  rw [step_eq, henc, hdec]

/-- Settles O50: `outputs` reads each port off the state, and `inReady` is the formula of R53. -/
theorem outputPortsShowHeldFields : Obligations.OutputPortsShowHeldFields :=
  fun _ _ => ⟨rfl, rfl, rfl, rfl, rfl, rfl, rfl, rfl, rfl, rfl, rfl⟩

/-! ## Runs without reset follow the table over the symbols accepted (20_memory.md R63) -/

theorem val_concat (t : BitString) (b : Bool) : val (t ++ [b]) = 2 * val t + b.toNat := by
  simp [val]

theorem val_lt_two_pow (t : BitString) : val t < 2 ^ t.length := by
  induction t using List.reverseRecOn with
  | nil => simp
  | append_singleton t b ih =>
    have hb := b.toNat_le
    rw [val_concat, List.length_append, List.length_singleton, Nat.pow_succ']
    omega

theorem decIns_trace_succ (k : Nat) (p : Params) (e : Encoder p.W) (d : Decoder p.W) (l : List (Inputs p.W)) :
    decIns (trace (k + 1) ⟨p, e, d, l⟩) = (acceptedSymbol (l.headD (idleInputs p.W)) d).toList ++ decIns (trace k
      ⟨p, nextEncoder (l.headD (idleInputs p.W)) e, nextDecoder (l.headD (idleInputs p.W)) d, l.tail⟩) := by
  rw [trace_succ, decIns, List.filterMap_cons, nextTransfers_decIn]
  show _ = (acceptedSymbol (nextInputs ⟨p, e, d, l⟩) d).toList ++ _
  cases acceptedSymbol (nextInputs ⟨p, e, d, l⟩) d <;> rfl

theorem isSymbol_of_mem_decIns {k : Nat} {s : State} {sym : Instr} (h : sym ∈ decIns (trace k s)) :
    isSymbol sym = true := by
  induction k generalizing s with
  | zero => cases h
  | succ k ih =>
    obtain ⟨p, e, d, l⟩ := s
    rw [decIns_trace_succ, List.mem_append, Option.mem_toList] at h
    rcases h with h | h
    · exact isSymbol_of_acceptedSymbol h
    · exact ih h

theorem fsmView_nextDecoder {W : Nat} {D : Decoder W} {i : Inputs W} (hrst : i.rst = false)
    (h : FsmInv (LMAX W) (fsmView D)) :
    fsmView (nextDecoder i D) = (fsmRun (LMAX W) (fsmView D) (acceptedSymbol i D).toList).1 := by
  cases hsym : acceptedSymbol i D with
  | some sym =>
    rw [nextDecoder_of_symbol hrst hsym, fsmView_afterSymbol h]
    rfl
  | none =>
    rw [nextDecoder_of_no_symbol hrst hsym]
    rfl

/-- R63: the decoder's fields after a run without reset, whatever the stalls and quiet edges in it. -/
theorem run_follows_table (k : Nat) (p : Params) (e : Encoder p.W) (d : Decoder p.W) (l : List (Inputs p.W))
    (h : DecoderInv d) (hrst : ∀ i ∈ l.take k, i.rst = false) :
    ∃ (e' : Encoder p.W) (d' : Decoder p.W),
      Sys2Proof.core.run k ⟨p, e, d, l⟩ = .next ⟨p, e', d', l.drop k⟩ ∧
      fsmView d' = (fsmRun (LMAX p.W) (fsmView d) (decIns (trace k ⟨p, e, d, l⟩))).1 := by
  induction k generalizing e d l with
  | zero => exact ⟨e, d, rfl, rfl⟩
  | succ k ih =>
    have hhead : (l.headD (idleInputs p.W)).rst = false := by
      cases l with
      | nil => rfl
      | cons i l => exact hrst i (by simp)
    have htail : ∀ i ∈ l.tail.take k, i.rst = false := by
      cases l with
      | nil => simp
      | cons i l => exact fun j hj => hrst j (.tail i hj)
    obtain ⟨e', d', hrun, hview⟩ := ih _ _ l.tail (decoderInv_nextDecoder p.two_le_W h _) htail
    refine ⟨e', d', ?_, ?_⟩
    · rw [run_succ, hrun, List.drop_tail]
    · rw [hview, decIns_trace_succ, fsmRun_append, fsmView_nextDecoder hhead h.fsmInv]

/-! ## What of the symbols read is still open (R33, R145, R146) -/

/-- The fields after the symbols `syms` of a run from a frame boundary: `pre` are the symbols up to a code boundary, or
up to the symbol that failed the frame. -/
inductive OpenCode (lmax : Nat) (syms : List Instr) : FsmView → Prop
  | scan {pre : List Instr} {n : Nat} (hpre : (fsmRun lmax .atBoundary pre).1 = .atBoundary)
      (hsyms : syms = pre ++ (List.replicate n false).map bitInstr) (hn : n ≤ lmax) :
      OpenCode lmax syms ⟨.scanPrefix, n, 0, .ok⟩
  | read {pre : List Instr} {L : Nat} {t : BitString} (hpre : (fsmRun lmax .atBoundary pre).1 = .atBoundary)
      (hsyms : syms = pre ++ (List.replicate L false ++ [true] ++ t).map bitInstr)
      (hL : L ≤ lmax) (ht : t.length < L) :
      OpenCode lmax syms ⟨.readOffset, L - t.length, 2 ^ t.length + val t, .ok⟩
  | drain {pre since : List Instr} {bad : Instr} {err : Status}
      (hpre : (fsmRun lmax .atBoundary pre).1.fs ≠ .drain) (hsyms : syms = pre ++ [bad] ++ since)
      (hsince : .dend ∉ since)
      (hbad : (bad = .drsv ∧ err = .illegalSymbol) ∨ (bad = .dbit0 ∧ err = .valueOverflow ∧
        (fsmRun lmax .atBoundary pre).1 = ⟨.scanPrefix, lmax, 0, .ok⟩)) :
      OpenCode lmax syms ⟨.drain, 0, 0, err⟩

section
variable {lmax : Nat} {syms : List Instr}

theorem fsmRun_concat (v : FsmView) (sym : Instr) :
    (fsmRun lmax v (syms ++ [sym])).1 = (fsmTable lmax (fsmRun lmax v syms).1 sym).1 := by
  rw [fsmRun_append, fsmRun_cons, fsmRun_nil]

/-- Nothing is open at a frame boundary. -/
theorem openCode_atBoundary (h : (fsmRun lmax .atBoundary syms).1 = .atBoundary) :
    OpenCode lmax syms .atBoundary :=
  .scan (n := 0) h (by simp) (Nat.zero_le lmax)

/-- A symbol that fails the frame. -/
theorem openCode_failed {bad : Instr} {err : Status} (hpre : (fsmRun lmax .atBoundary syms).1.fs ≠ .drain)
    (hbad : (bad = .drsv ∧ err = .illegalSymbol) ∨ (bad = .dbit0 ∧ err = .valueOverflow ∧
      (fsmRun lmax .atBoundary syms).1 = ⟨.scanPrefix, lmax, 0, .ok⟩)) :
    OpenCode lmax (syms ++ [bad]) ⟨.drain, 0, 0, err⟩ :=
  .drain (since := []) hpre (by simp) (by simp) hbad

/-- R143, R145: one more offset bit of the code being read. -/
theorem openCode_offsetBit {pre : List Instr} {L : Nat} {t : BitString} (b : Bool)
    (hpre : (fsmRun lmax .atBoundary pre).1 = .atBoundary)
    (hsyms : syms = pre ++ (List.replicate L false ++ [true] ++ t).map bitInstr) (hL : L ≤ lmax) (ht : t.length < L)
    (hrun : (fsmRun lmax .atBoundary (syms ++ [bitInstr b])).1 =
      (tableOffsetBit ⟨.readOffset, L - t.length, 2 ^ t.length + val t, .ok⟩ b).1) :
    OpenCode lmax (syms ++ [bitInstr b])
      (tableOffsetBit ⟨.readOffset, L - t.length, 2 ^ t.length + val t, .ok⟩ b).1 := by
  by_cases hlast : L - t.length = 1
  · simp only [tableOffsetBit, hlast, if_true] at hrun ⊢
    exact openCode_atBoundary hrun
  · have hview : (tableOffsetBit ⟨.readOffset, L - t.length, 2 ^ t.length + val t, .ok⟩ b).1 =
        ⟨.readOffset, L - (t ++ [b]).length, 2 ^ (t ++ [b]).length + val (t ++ [b]), .ok⟩ := by
      simp only [tableOffsetBit, hlast, if_false, val_concat, List.length_append, List.length_singleton,
        Nat.pow_succ', FsmView.mk.injEq, true_and, and_true]
      omega
    rw [hview]
    exact .read hpre (by simp [hsyms]) hL (by simp; omega)

/-- One more symbol, along the rows of the table. -/
theorem openCode_concat (h : OpenCode lmax syms (fsmRun lmax .atBoundary syms).1) {sym : Instr}
    (hsym : isSymbol sym = true) :
    OpenCode lmax (syms ++ [sym]) (fsmRun lmax .atBoundary (syms ++ [sym])).1 := by
  have hrun := fsmRun_concat (lmax := lmax) (syms := syms) .atBoundary sym
  generalize hv : (fsmRun lmax .atBoundary syms).1 = v at h hrun
  rw [hrun]
  cases h with
  | @scan pre n hpre hsyms hn =>
    cases sym with
    | enc => cases hsym
    | dbit0 =>
      by_cases hmax : n = lmax
      · subst hmax
        simp only [fsmTable, if_true]
        exact openCode_failed (by simp [hv]) (.inr ⟨rfl, rfl, hv⟩)
      · simp only [fsmTable, hmax, if_false]
        exact .scan hpre (by simp [hsyms, List.replicate_succ', bitInstr]) (by omega)
    | dbit1 =>
      by_cases hzero : n = 0
      · simp only [fsmTable, hzero, if_true] at hrun ⊢
        exact openCode_atBoundary hrun
      · simp only [fsmTable, hzero, if_false]
        exact .read (t := []) hpre (by simp [hsyms, bitInstr]) hn (Nat.pos_of_ne_zero hzero)
    | dend => exact openCode_atBoundary hrun
    | drsv => exact openCode_failed (by simp [hv]) (.inl ⟨rfl, rfl⟩)
  | read hpre hsyms hL ht =>
    cases sym with
    | enc => cases hsym
    | dbit0 => exact openCode_offsetBit false hpre hsyms hL ht hrun
    | dbit1 => exact openCode_offsetBit true hpre hsyms hL ht hrun
    | dend => exact openCode_atBoundary hrun
    | drsv => exact openCode_failed (by simp [hv]) (.inl ⟨rfl, rfl⟩)
  | drain hpre hsyms hsince hbad =>
    cases sym with
    | enc => cases hsym
    | dbit0 | dbit1 | drsv => exact .drain hpre (by rw [hsyms, List.append_assoc]) (by simp [hsince]) hbad
    | dend => exact openCode_atBoundary hrun

theorem openCode_fsmRun (hsyms : ∀ sym ∈ syms, isSymbol sym = true) :
    OpenCode lmax syms (fsmRun lmax .atBoundary syms).1 := by
  induction syms using List.reverseRecOn with
  | nil => exact openCode_atBoundary rfl
  | append_singleton syms sym ih =>
    exact openCode_concat (ih fun x hx => hsyms x (by simp [hx])) (hsyms sym (by simp))
end

/-- Settles O53: the run leaves the fields of the table over the symbols accepted, and these tell what is open. -/
theorem fsmFieldsTellWhatWasRead : Obligations.FsmFieldsTellWhatWasRead := by
  rintro ⟨p, e, d, l⟩ k h hstart hrst
  obtain ⟨e', d', hrun, hview⟩ := run_follows_table k p e d l h hrst
  have hopen := openCode_fsmRun (lmax := LMAX p.W) (syms := decIns (trace k ⟨p, e, d, l⟩))
    fun _ => isSymbol_of_mem_decIns
  rw [hstart] at hview
  rw [← hview] at hopen
  generalize hv : fsmView d' = v at hopen
  cases hopen with
  | scan hpre hsyms =>
    obtain ⟨hfs, rfl, -, -⟩ := fsmView_eq_iff.mp hv
    exact ⟨e', d', _, hrun, fun _ => ⟨hsyms, hpre⟩, by simp [hfs], by simp [hfs]⟩
  | @read pre L t hpre hsyms hL ht =>
    obtain ⟨hfs, hcnt, hacc, -⟩ := fsmView_eq_iff.mp hv
    have hread : L - d'.cnt.toNat = t.length := by omega
    have hval := val_lt_two_pow t
    refine ⟨e', d', pre, hrun, by simp [hfs], fun _ => ⟨L, t, hsyms, hpre, hL, ht, hcnt, ?_⟩, by simp [hfs]⟩
    rw [hread, hacc, Nat.pow_succ]
    omega
  | @drain pre since bad err hpre hsyms hsince hbad =>
    obtain ⟨hfs, -, -, rfl⟩ := fsmView_eq_iff.mp hv
    exact ⟨e', d', pre, hrun, by simp [hfs], by simp [hfs], fun _ => ⟨bad, since, hsyms, hsince, hpre, hbad⟩⟩

end Sys2Proof.Machine
end

section
/-! PROOFS. The handshake and the output register at one edge (20_memory.md R52 to R55), runs as the two units side by
side, the order of records along a run (R63), and what a host's program transfers (30_encoding.md R84, R85). -/

namespace Sys2Proof.Machine

open Sys2Proof.Config

/-! ## Ready, valid and transfers (R52, R53) -/

/-- Settles O11: `inReady_iff` and `outFire_iff` on each channel; the other ports read the state only. -/
theorem transfersNeedValidAndReady : Obligations.TransfersNeedValidAndReady := by
  intro s i o t
  refine ⟨inReady_iff, inReady_iff, fun j => ⟨rfl, fun hrst hready => ?_, fun hrst hready => ?_⟩, ?_, ?_, ?_, ?_⟩
  · simp only [o, outputs, hrst, hready]
  · simp only [o, outputs, hrst, hready]
  all_goals simp only [t, nextTransfers, Option.isSome_ite, inFire_iff, outFire_iff, o, outputs, inReady_iff]
  · tauto
  · rfl
  · tauto
  · rfl

/-- A unit that accepts a payload gives up the record it still holds at the same edge (R53). -/
theorem outFire_of_inFire {rst valid ov outReady : Bool} (h : inFire rst valid ov outReady = true) :
    outFire rst ov outReady = ov := by
  obtain ⟨-, hrst, hov | hready⟩ := inFire_iff.mp h
  · simp [outFire, hov]
  · simp [outFire, hrst, hready]

/-! ## What each unit transfers at an edge, and its output register after it (R54) -/

section
variable {W : Nat} (i : Inputs W) (E : Encoder W) (D : Decoder W)

/-- The word that the encoder accepts at an edge, if any (R52). -/
def acceptedWord : Option (BitVec W) :=
  if inFire i.rst i.encInValid E.out.ov i.encOutReady then some i.encInData else none

/-- The response that the host takes at an edge, if any (R52). -/
def takenResponse : Option EncRecord :=
  if outFire i.rst E.out.ov i.encOutReady then some (encRecordOf E.out.held) else none

/-- The record that the host takes at an edge, if any (R52). -/
def takenRecord : Option DecRecord :=
  if outFire i.rst D.out.ov i.decOutReady then some (decRecordOf D.out.held) else none

/-- The record that the row of the table has for the decoder's fields and the symbol (R158). -/
def rowRecord (sym : Instr) : Option DecRecord := (fsmTable (LMAX W) (fsmView D) sym).2

variable {i E D}

theorem nextEncoder_out (hrst : i.rst = false) :
    (nextEncoder i E).out =
      outUpdate ((acceptedWord i E).map responseTo) (outFire i.rst E.out.ov i.encOutReady) E.out := by
  rw [nextEncoder, if_neg (by simp [hrst]), acceptedWord]
  split <;> rfl

theorem inFire_of_isSome_acceptedSymbol (h : (acceptedSymbol i D).isSome = true) :
    inFire i.rst i.decInValid D.out.ov i.decOutReady = true := by
  simpa [acceptedSymbol] using h

theorem nextDecoder_out (hrst : i.rst = false) :
    (nextDecoder i D).out = outUpdate (((acceptedSymbol i D).bind (rowRecord D)).map (recordOf W))
      (outFire i.rst D.out.ov i.decOutReady) D.out := by
  cases hsym : acceptedSymbol i D with
  | none =>
    rw [nextDecoder_of_no_symbol hrst hsym]
    rfl
  | some sym =>
    have hin := inFire_of_isSome_acceptedSymbol (Option.isSome_of_eq_some hsym)
    rw [nextDecoder_of_symbol hrst hsym, afterSymbol_out (isSymbol_of_acceptedSymbol hsym), outFire_of_inFire hin]
    rfl

/-- R158: a VALUE record of the table is of 1, or of the accumulator with an offset bit shifted in. -/
theorem value_of_fsmTable {lmax : Nat} {v : FsmView} {sym : Instr} {x : Nat}
    (h : (fsmTable lmax v sym).2 = some (.value x)) : x = 1 ∨ ∃ b : Bool, x = 2 * v.acc + b.toNat := by
  have hbit {b : Bool} (hx : (tableOffsetBit v b).2 = some (.value x)) : x = 2 * v.acc + b.toNat := by
    by_cases hlast : v.cnt = 1
    · simpa [tableOffsetBit, hlast, eq_comm] using hx
    · simp [tableOffsetBit, hlast] at hx
  obtain ⟨fs, cnt, acc, err⟩ := v
  cases sym with
  | enc | drsv | dend => cases fs <;> cases h
  | dbit0 =>
    cases fs with
    | scanPrefix => by_cases hmax : cnt = lmax <;> simp [fsmTable, hmax] at h
    | readOffset => exact .inr ⟨false, hbit h⟩
    | drain => cases h
  | dbit1 =>
    cases fs with
    | scanPrefix =>
      by_cases hzero : cnt = 0
      · exact .inl (by simpa [fsmTable, hzero, eq_comm] using h)
      · simp [fsmTable, hzero] at h
    | readOffset => exact .inr ⟨true, hbit h⟩
    | drain => cases h

/-- R74, R145: a host reads the table's record off the decoder's, since its value fits the data word. -/
theorem decRecordOf_recordOf (hW : 2 ≤ W) {sym : Instr} {r : DecRecord} (h : rowRecord D sym = some r) :
    decRecordOf (recordOf W r) = r := by
  cases r with
  | done outcome => rfl
  | value x =>
    have hx : x < 2 ^ W := by
      obtain rfl | ⟨b, rfl⟩ := value_of_fsmTable h
      · exact Nat.one_lt_two_pow (by omega)
      · exact shiftIn_lt hW D.acc b
    simp [decRecordOf, recordOf, valueRecord, Nat.mod_eq_of_lt hx]
end

/-- Settles O12: a unit's next state reads a payload only where `inFire` holds, and the other unit reads none of it. -/
theorem payloadsAreSampledOnlyAtTransfers : Obligations.PayloadsAreSampledOnlyAtTransfers := by
  intro p e d i l x y
  constructor
  · intro hin
    have henc : nextEncoder { i with encInData := x } e = nextEncoder i e := by simp [nextEncoder, hin]
    rw [step_eq, step_eq, List.headD_cons, List.headD_cons, henc]
    rfl
  · intro hin
    have hdec : nextDecoder { i with decInSym := y } d = nextDecoder i d := by simp [nextDecoder, hin]
    rw [step_eq, step_eq, List.headD_cons, List.headD_cons, hdec]
    rfl

section
variable {W : Nat} {i : Inputs W} {E : Encoder W} {D : Decoder W}

theorem nextTransfers_encIn (s : State) :
    (nextTransfers s).encIn = (acceptedWord (nextInputs s) s.enc).map BitVec.toNat := by
  simp only [nextTransfers, acceptedWord]
  split <;> rfl

theorem nextTransfers_encOut (s : State) : (nextTransfers s).encOut = takenResponse (nextInputs s) s.enc := rfl

theorem nextTransfers_decOut (s : State) : (nextTransfers s).decOut = takenRecord (nextInputs s) s.dec := rfl

theorem isSome_ite_some {α : Type} {b : Bool} {x : α} : (if b then some x else none).isSome = b := by
  cases b <;> rfl

@[simp] theorem isSome_takenResponse :
    (takenResponse i E).isSome = outFire i.rst E.out.ov i.encOutReady := isSome_ite_some

@[simp] theorem isSome_takenRecord :
    (takenRecord i D).isSome = outFire i.rst D.out.ov i.decOutReady := isSome_ite_some

theorem acceptedWord_eq_some {x : BitVec W} (h : acceptedWord i E = some x) : i.encInData = x := by
  obtain ⟨-, hx⟩ : _ ∧ i.encInData = x := by simpa [acceptedWord] using h
  exact hx
end

/-- Settles O13: `nextEncoder_out` and `nextDecoder_out`, by what is accepted and what is taken. -/
theorem outputRegisterUpdate : Obligations.OutputRegisterUpdate := by
  rintro ⟨p, e, d, l⟩ hrst
  generalize hi : nextInputs ⟨p, e, d, l⟩ = i at hrst
  refine ⟨nextEncoder i e, nextDecoder i d, ?_, ?_, ?_, fun hin hout => ?_⟩
  · rw [step_eq, ← hi]
    rfl
  · rw [nextTransfers_encIn, nextTransfers_encOut, isSome_takenResponse, hi, nextEncoder_out hrst]
    cases hw : acceptedWord i e with
    | some w => simp [acceptedWord_eq_some hw]
    | none => cases outFire i.rst e.out.ov i.encOutReady <;> simp
  · rw [nextTransfers_decIn, nextTransfers_decOut, isSome_takenRecord, hi, nextDecoder_out hrst]
    generalize hrow : ((acceptedSymbol i d).bind fun sym => (fsmTable (LMAX p.W) (fsmView d) sym).2) = row
    have hr : (acceptedSymbol i d).bind (rowRecord d) = row := hrow
    rw [hr]
    cases row with
    | some r =>
      obtain ⟨sym, -, hsym⟩ := Option.bind_eq_some_iff.mp hr
      exact ⟨rfl, decRecordOf_recordOf p.two_le_W hsym⟩
    | none => cases outFire i.rst d.out.ov i.decOutReady <;> simp
  · rw [nextTransfers_decIn, hi] at hin ⊢
    rw [nextTransfers_decOut, hi] at hout
    have hov : d.out.ov = false := by
      rw [← outFire_of_inFire (inFire_of_isSome_acceptedSymbol hin), ← isSome_takenRecord, hout]
      rfl
    refine ⟨hov, fun hnone => ?_⟩
    have hr : (acceptedSymbol i d).bind (rowRecord d) = none := Option.bind_eq_none_iff.mpr hnone
    rw [nextDecoder_out hrst, hr, ← isSome_takenRecord, hout]
    exact hov

/-! ## The symbols at their own edge (41_decoder.md R150, R152, R156) -/

/-- Settles O22: `execEnc` compares the widths. -/
theorem encOfAnotherWidthIsRefused : Obligations.EncOfAnotherWidthIsRefused := fun _ _ _ hw => if_neg hw

/-- The value of a code whose last offset bit is `b` fits the data word. -/
theorem toNat_ofNat_shiftIn {W : Nat} (hW : 2 ≤ W) (acc : BitVec (AW W)) (b : Bool) :
    (BitVec.ofNat W (shiftIn acc b)).toNat = 2 * acc.toNat + b.toNat := by
  rw [BitVec.toNat_ofNat, Nat.mod_eq_of_lt (shiftIn_lt hW acc b), shiftIn]

/-- The accumulator takes an offset bit in without loss up to `XMAX`. -/
theorem toNat_acc_shiftIn {W : Nat} (acc : BitVec (AW W)) (b : Bool) (h : 2 * acc.toNat + b.toNat ≤ XMAX W) :
    (BitVec.ofNat (AW W) (shiftIn acc b)).toNat = 2 * acc.toNat + b.toNat := by
  rw [BitVec.toNat_ofNat, shiftIn, Nat.mod_eq_of_lt (lt_two_pow_AW h)]

section
variable (s : State)

/-- R150, R152 in READ_OFFSET with one offset bit to come: the code is complete. -/
theorem readOffsetBit_last_eq (b : Bool) (hlast : s.dec.cnt.toNat = 1) :
    ∃ x : BitVec s.params.W, x.toNat = 2 * s.dec.acc.toNat + b.toNat ∧
      readOffsetBit s b = .next { s with dec := ⟨.scanPrefix, 0, 0, s.dec.err, ⟨true, ⟨.value, .ok, x⟩⟩⟩ } :=
  ⟨_, toNat_ofNat_shiftIn s.params.two_le_W s.dec.acc b, readOffsetBit_last b hlast⟩

/-- R150, R152 in READ_OFFSET with more offset bits to come. -/
theorem readOffsetBit_more_eq (b : Bool) (hfs : s.dec.fs = .readOffset) (hmore : s.dec.cnt.toNat ≠ 1) :
    ∃ a : BitVec (AW s.params.W),
      (2 * s.dec.acc.toNat + b.toNat ≤ XMAX s.params.W → a.toNat = 2 * s.dec.acc.toNat + b.toNat) ∧
      readOffsetBit s b = .next { s with dec :=
        ⟨.readOffset, s.dec.cnt - 1, a, s.dec.err, ⟨false, s.dec.out.held⟩⟩ } ∧
      (2 ≤ s.dec.cnt.toNat → (s.dec.cnt - 1).toNat = s.dec.cnt.toNat - 1) := by
  refine ⟨_, toNat_acc_shiftIn s.dec.acc b, ?_, fun h => cnt_sub_one (by omega)⟩
  simp [readOffsetBit_more b hmore, hfs]

/-- A symbol accepted in DRAIN changes nothing but the output register (R148). -/
theorem accept_drain :
    accept s s.dec none = .next { s with dec := { s.dec with out := ⟨false, s.dec.out.held⟩ } } :=
  accept_none_eq s s.dec
end

/-- Settles O30: `execDbit0` on each state of the FSM, with the arithmetic of its two counters. -/
theorem dbit0Effect : Obligations.Dbit0Effect := by
  intro s
  refine ⟨fun hfs hmax => ?_, fun hfs hmax => ⟨?_, cnt_add_one⟩, fun hfs hlast => ?_, fun hfs hmore => ?_,
    fun hfs => ?_⟩
  · simp [exec, execDbit0, hfs, hmax, accept_none_eq, raiseError]
  · simp [exec, execDbit0, hfs, hmax, accept_none_eq]
  · simpa [exec, execDbit0, hfs] using readOffsetBit_last_eq s false hlast
  · simpa [exec, execDbit0, hfs] using readOffsetBit_more_eq s false hfs hmore
  · simpa only [exec, execDbit0, hfs] using accept_drain s

/-- Settles O31: `execDbit1` on each state of the FSM, with the arithmetic of its accumulator. -/
theorem dbit1Effect : Obligations.Dbit1Effect := by
  intro s
  have hW := s.params.two_le_W
  refine ⟨fun hfs hzero => ⟨BitVec.ofNat _ 1, ?_, ?_⟩, fun hfs hpos => ⟨1, ?_, ?_⟩, fun hfs hlast => ?_,
    fun hfs hmore => ?_, fun hfs => ?_⟩
  · exact toNat_one_of_pos (by omega)
  · simp [exec, execDbit1, hfs, hzero, accept_some_eq, valueRecord]
  · exact toNat_one_of_pos (by simp only [AW]; omega)
  · simp [exec, execDbit1, hfs, hpos, accept_none_eq]
  · simpa [exec, execDbit1, hfs] using readOffsetBit_last_eq s true hlast
  · simpa [exec, execDbit1, hfs] using readOffsetBit_more_eq s true hfs hmore
  · simpa only [exec, execDbit1, hfs] using accept_drain s

/-- Settles O33: `execDrsv` on each state of the FSM. -/
theorem drsvEffect : Obligations.DrsvEffect := by
  intro s
  refine ⟨fun hfs => ?_, fun hfs => ?_⟩
  · cases h : s.dec.fs with
    | scanPrefix | readOffset => simp [exec, execDrsv, h, accept_none_eq, raiseError]
    | drain => exact absurd h hfs
  · simpa only [exec, execDrsv, hfs] using accept_drain s

/-! ## A run as the two units side by side (R16) -/

theorem filterMap_cons_toList {α β : Type} (f : α → Option β) (x : α) (xs : List α) :
    (x :: xs).filterMap f = (f x).toList ++ xs.filterMap f := by
  cases h : f x <;> simp [h]

section
variable {ι σ β : Type} (next : ι → σ → σ) (obs : ι → σ → Option β)

/-- A unit after the inputs `is`, one after the other. -/
def after (is : List ι) (x : σ) : σ := is.foldl (fun x i => next i x) x

/-- What `obs` shows of a unit along the inputs `is`, in order. -/
def observed : List ι → σ → List β
  | [], _ => []
  | i :: is, x => (obs i x).toList ++ observed is (next i x)

@[simp] theorem after_nil (x : σ) : after next [] x = x := rfl

@[simp] theorem after_cons (i : ι) (is : List ι) (x : σ) : after next (i :: is) x = after next is (next i x) := rfl

@[simp] theorem observed_nil (x : σ) : observed next obs [] x = [] := rfl

@[simp] theorem observed_cons (i : ι) (is : List ι) (x : σ) :
    observed next obs (i :: is) x = (obs i x).toList ++ observed next obs is (next i x) := rfl

variable {next obs}

theorem after_of_fixed {is : List ι} {x : σ} (h : ∀ i ∈ is, next i x = x) : after next is x = x := by
  induction is with
  | nil => rfl
  | cons i is ih =>
    rw [after_cons, h i (by simp)]
    exact ih fun j hj => h j (by simp [hj])

theorem observed_of_fixed {is : List ι} {x : σ} (h : ∀ i ∈ is, next i x = x) (hobs : ∀ i ∈ is, obs i x = none) :
    observed next obs is x = [] := by
  induction is with
  | nil => rfl
  | cons i is ih =>
    rw [observed_cons, hobs i (by simp), h i (by simp)]
    exact ih (fun j hj => h j (by simp [hj])) fun j hj => hobs j (by simp [hj])
end

section
variable {W : Nat}

/-- The encoder after the edges `is`. -/
def encoderAfter (is : List (Inputs W)) (E : Encoder W) : Encoder W := after nextEncoder is E

/-- The decoder after the edges `is`. -/
def decoderAfter (is : List (Inputs W)) (D : Decoder W) : Decoder W := after nextDecoder is D

/-- The words accepted along the edges `is`, as numbers. -/
def wordsAccepted (is : List (Inputs W)) (E : Encoder W) : List Nat :=
  observed nextEncoder (fun i E => (acceptedWord i E).map BitVec.toNat) is E

/-- The responses taken along the edges `is`. -/
def responsesTaken (is : List (Inputs W)) (E : Encoder W) : List EncRecord := observed nextEncoder takenResponse is E

/-- The symbols accepted along the edges `is`. -/
def symbolsAccepted (is : List (Inputs W)) (D : Decoder W) : List Instr := observed nextDecoder acceptedSymbol is D

/-- The records taken along the edges `is`. -/
def recordsTaken (is : List (Inputs W)) (D : Decoder W) : List DecRecord := observed nextDecoder takenRecord is D

section
variable (i : Inputs W) (is : List (Inputs W)) (E : Encoder W) (D : Decoder W)

@[simp] theorem encoderAfter_nil : encoderAfter [] E = E := rfl
@[simp] theorem decoderAfter_nil : decoderAfter [] D = D := rfl
@[simp] theorem wordsAccepted_nil : wordsAccepted [] E = [] := rfl
@[simp] theorem responsesTaken_nil : responsesTaken [] E = [] := rfl
@[simp] theorem symbolsAccepted_nil : symbolsAccepted [] D = [] := rfl
@[simp] theorem recordsTaken_nil : recordsTaken [] D = [] := rfl

@[simp] theorem encoderAfter_cons : encoderAfter (i :: is) E = encoderAfter is (nextEncoder i E) := rfl
@[simp] theorem decoderAfter_cons : decoderAfter (i :: is) D = decoderAfter is (nextDecoder i D) := rfl
@[simp] theorem wordsAccepted_cons : wordsAccepted (i :: is) E =
    ((acceptedWord i E).map BitVec.toNat).toList ++ wordsAccepted is (nextEncoder i E) := rfl
@[simp] theorem responsesTaken_cons : responsesTaken (i :: is) E =
    (takenResponse i E).toList ++ responsesTaken is (nextEncoder i E) := rfl
@[simp] theorem symbolsAccepted_cons : symbolsAccepted (i :: is) D =
    (acceptedSymbol i D).toList ++ symbolsAccepted is (nextDecoder i D) := rfl
@[simp] theorem recordsTaken_cons : recordsTaken (i :: is) D =
    (takenRecord i D).toList ++ recordsTaken is (nextDecoder i D) := rfl

@[simp] theorem encoderAfter_concat : encoderAfter (is ++ [i]) E = nextEncoder i (encoderAfter is E) :=
  List.foldl_concat ..
@[simp] theorem decoderAfter_concat : decoderAfter (is ++ [i]) D = nextDecoder i (decoderAfter is D) :=
  List.foldl_concat ..
end

theorem nextEncoder_idle (E : Encoder W) : nextEncoder (idleInputs W) E = E :=
  nextEncoder_of_quiet rfl rfl (by simp [idleInputs, outFire])

theorem nextDecoder_idle (D : Decoder W) : nextDecoder (idleInputs W) D = D :=
  nextDecoder_of_quiet rfl rfl (by simp [idleInputs, outFire])
end

section
variable (k : Nat) (p : Params) (e : Encoder p.W) (d : Decoder p.W) (l : List (Inputs p.W))

/-- An edge past the end of the list is idle (log entry 2), so a run is that of the edges listed. -/
theorem run_eq : Sys2Proof.core.run k ⟨p, e, d, l⟩ =
    .next ⟨p, encoderAfter (l.take k) e, decoderAfter (l.take k) d, l.drop k⟩ := by
  induction k generalizing e d l with
  | zero => rfl
  | succ k ih =>
    rw [run_succ, ih]
    cases l with
    | nil => simp [nextEncoder_idle, nextDecoder_idle]
    | cons i l => rfl

/-- A channel's transfers along a run are those that its unit shows along the edges listed. -/
theorem filterMap_trace {σ β : Type} {f : Transfers → Option β} {next : Inputs p.W → σ → σ}
    {obs : Inputs p.W → σ → Option β} (unit : Encoder p.W → Decoder p.W → σ)
    (hnext : ∀ i e d, unit (nextEncoder i e) (nextDecoder i d) = next i (unit e d))
    (hobs : ∀ e d l, f (nextTransfers ⟨p, e, d, l⟩) = obs (l.headD (idleInputs p.W)) (unit e d))
    (hidle : ∀ x, obs (idleInputs p.W) x = none) :
    (trace k ⟨p, e, d, l⟩).filterMap f = observed next obs (l.take k) (unit e d) := by
  induction k generalizing e d l with
  | zero => rfl
  | succ k ih =>
    rw [trace_succ, filterMap_cons_toList, hobs, ih, hnext]
    cases l with
    | nil => simp [hidle]
    | cons i l => rfl

theorem encIns_trace : encIns (trace k ⟨p, e, d, l⟩) = wordsAccepted (l.take k) e :=
  filterMap_trace k p e d l (fun e _ => e) (fun _ _ _ => rfl) (fun _ _ _ => nextTransfers_encIn _) fun _ => rfl

theorem encOuts_trace : encOuts (trace k ⟨p, e, d, l⟩) = responsesTaken (l.take k) e :=
  filterMap_trace k p e d l (fun e _ => e) (fun _ _ _ => rfl) (fun _ _ _ => rfl)
    fun E => by simp [takenResponse, idleInputs, outFire]

theorem decIns_trace : decIns (trace k ⟨p, e, d, l⟩) = symbolsAccepted (l.take k) d :=
  filterMap_trace k p e d l (fun _ d => d) (fun _ _ _ => rfl) (fun _ _ _ => rfl) fun _ => rfl

theorem decOuts_trace : decOuts (trace k ⟨p, e, d, l⟩) = recordsTaken (l.take k) d :=
  filterMap_trace k p e d l (fun _ d => d) (fun _ _ _ => rfl) (fun _ _ _ => rfl)
    fun D => by simp [takenRecord, idleInputs, outFire]
end

/-! ## A record not taken stays (R55) -/

/-- R53: neither channel of a unit that holds a record transfers while `out_ready` is 0. -/
theorem no_fire_of_stalled {rst valid ov outReady : Bool} (hov : ov = true) (hready : outReady = false) :
    inFire rst valid ov outReady = false ∧ outFire rst ov outReady = false := by
  subst hov hready
  cases rst <;> cases valid <;> exact ⟨rfl, rfl⟩

section
variable {W : Nat} {i : Inputs W} {E : Encoder W} {D : Decoder W}

theorem encoder_stalled (hov : E.out.ov = true) (hrst : i.rst = false) (hready : i.encOutReady = false) :
    nextEncoder i E = E ∧ acceptedWord i E = none ∧ takenResponse i E = none := by
  obtain ⟨hin, hout⟩ := no_fire_of_stalled (rst := i.rst) (valid := i.encInValid) hov hready
  exact ⟨nextEncoder_of_quiet hrst hin hout, by simp [acceptedWord, hin], by simp [takenResponse, hout]⟩

theorem decoder_stalled (hov : D.out.ov = true) (hrst : i.rst = false) (hready : i.decOutReady = false) :
    nextDecoder i D = D ∧ acceptedSymbol i D = none ∧ takenRecord i D = none := by
  obtain ⟨hin, hout⟩ := no_fire_of_stalled (rst := i.rst) (valid := i.decInValid) hov hready
  have hsym : acceptedSymbol i D = none := by simp [acceptedSymbol, hin]
  exact ⟨nextDecoder_of_quiet hrst hsym hout, hsym, by simp [takenRecord, hout]⟩
end

/-- Settles O14: every edge of the run leaves the stalled unit as it is, with no transfer on its channels. -/
theorem stalledUnitKeepsItsRecord : Obligations.StalledUnitKeepsItsRecord := by
  rintro ⟨p, e, d, l⟩ n hrst
  rw [run_eq, encIns_trace, encOuts_trace, decIns_trace, decOuts_trace]
  constructor
  · intro hov hready
    choose hfix hin hout using fun i hi => encoder_stalled hov (hrst i hi) (hready i hi)
    rw [show encoderAfter (l.take n) e = e from after_of_fixed hfix]
    exact ⟨_, rfl, observed_of_fixed hfix fun i hi => by simp [hin i hi], observed_of_fixed hfix hout⟩
  · intro hov hready
    choose hfix hin hout using fun i hi => decoder_stalled hov (hrst i hi) (hready i hi)
    rw [show decoderAfter (l.take n) d = d from after_of_fixed hfix]
    exact ⟨_, rfl, observed_of_fixed hfix hin, observed_of_fixed hfix hout⟩

/-! ## The order of the records along a run without reset (R63) -/

/-- R54 at one edge: what is taken and what is then offered are what was offered and what is loaded. -/
theorem taken_append_offered {α β : Type} (f : α → β) {produced : Option α} {fired : Bool} {r : OutReg α}
    (hfired : fired = true → r.ov = true) (hproduced : produced.isSome = true → fired = r.ov) :
    (if fired then some (f r.held) else none).toList ++ (offered (outUpdate produced fired r)).toList.map f =
      (offered r).toList.map f ++ produced.toList.map f := by
  obtain ⟨ov, held⟩ := r
  cases produced with
  | some x =>
    obtain rfl : fired = ov := hproduced rfl
    cases fired <;> rfl
  | none =>
    cases fired with
    | true =>
      obtain rfl : ov = true := hfired rfl
      rfl
    | false => simp

theorem ov_of_outFire {rst ov outReady : Bool} (h : outFire rst ov outReady = true) : ov = true := by
  obtain ⟨-, hov, -⟩ := outFire_iff.mp h
  exact hov

section
variable {W : Nat}

/-- The responses to a list of words (R100). -/
def answers (W : Nat) (words : List Nat) : List EncRecord :=
  words.map fun w => encRecordOf (responseTo (BitVec.ofNat W w))

theorem responses_edge {i : Inputs W} (E : Encoder W) (hrst : i.rst = false) :
    (takenResponse i E).toList ++ heldResponses (nextEncoder i E).out =
      heldResponses E.out ++ (((acceptedWord i E).map responseTo).toList.map encRecordOf) := by
  rw [heldResponses, nextEncoder_out hrst]
  refine taken_append_offered encRecordOf ov_of_outFire fun h => outFire_of_inFire (valid := i.encInValid) ?_
  simpa [acceptedWord] using h

/-- R63 for the encoder: the answer to a word is the response loaded at its transfer (R100). -/
theorem responses_run {is : List (Inputs W)} (E : Encoder W) (hrst : ∀ i ∈ is, i.rst = false) :
    responsesTaken is E ++ heldResponses (encoderAfter is E).out =
      heldResponses E.out ++ answers W (wordsAccepted is E) := by
  induction is generalizing E with
  | nil => simp [answers]
  | cons i is ih =>
    have hedge := responses_edge E (hrst i (by simp))
    have htail := ih (nextEncoder i E) fun j hj => hrst j (by simp [hj])
    rw [responsesTaken_cons, encoderAfter_cons, wordsAccepted_cons, List.append_assoc, htail, ← List.append_assoc,
      hedge, List.append_assoc]
    cases acceptedWord i E <;> simp [answers]
end

/-- Settles O28: `responses_run` on the edges of the run. -/
theorem responsesFollowWords : Obligations.ResponsesFollowWords := by
  rintro ⟨p, e, d, l⟩ k hrst
  rw [run_eq, encOuts_trace, encIns_trace]
  exact ⟨_, _, rfl, responses_run e hrst⟩

section
variable {W : Nat}

/-- The records of the table's rows along a list of symbols, on the decoder itself: also outside the invariant, where its
fields are not those of `fsmRun` (log entry 8). -/
def recordsLoaded (syms : List Instr) (D : Decoder W) : List DecRecord :=
  observed afterSymbol (fun sym D => rowRecord D sym) syms D

@[simp] theorem recordsLoaded_nil (D : Decoder W) : recordsLoaded [] D = [] := rfl

@[simp] theorem recordsLoaded_cons (sym : Instr) (syms : List Instr) (D : Decoder W) :
    recordsLoaded (sym :: syms) D = (rowRecord D sym).toList ++ recordsLoaded syms (afterSymbol sym D) := rfl

/-- Decoders with the same fields as numbers differ in the output register at most. -/
theorem exists_out_of_fsmView_eq {D D' : Decoder W} (h : fsmView D = fsmView D') : ∃ r, D' = { D with out := r } := by
  obtain ⟨fs, cnt, acc, err, out⟩ := D
  obtain ⟨fs', cnt', acc', err', out'⟩ := D'
  obtain ⟨rfl, hcnt, hacc, rfl⟩ := FsmView.mk.inj h
  obtain rfl := BitVec.eq_of_toNat_eq hcnt
  obtain rfl := BitVec.eq_of_toNat_eq hacc
  exact ⟨out', rfl⟩

/-- R54: what a symbol does with the FSM fields does not depend on the output register. -/
theorem fsmView_afterSymbol_out (D : Decoder W) (r : OutReg (Record W)) (sym : Instr) :
    fsmView (afterSymbol sym { D with out := r }) = fsmView (afterSymbol sym D) := by
  obtain ⟨fs, cnt, acc, err, out⟩ := D
  cases sym with
  | enc | dend | drsv => cases fs <;> rfl
  | dbit0 =>
    cases fs with
    | scanPrefix => simp only [afterSymbol]; split <;> rfl
    | readOffset => simp only [afterSymbol, afterOffsetBit]; split <;> rfl
    | drain => rfl
  | dbit1 =>
    cases fs with
    | scanPrefix => simp only [afterSymbol]; split <;> rfl
    | readOffset => simp only [afterSymbol, afterOffsetBit]; split <;> rfl
    | drain => rfl

theorem recordsLoaded_out (syms : List Instr) (D : Decoder W) (r : OutReg (Record W)) :
    recordsLoaded syms { D with out := r } = recordsLoaded syms D := by
  induction syms generalizing D r with
  | nil => rfl
  | cons sym syms ih =>
    obtain ⟨r', hr'⟩ := exists_out_of_fsmView_eq (fsmView_afterSymbol_out D r sym).symm
    rw [recordsLoaded_cons, recordsLoaded_cons, hr', ih]
    rfl

theorem records_edge (hW : 2 ≤ W) {i : Inputs W} (D : Decoder W) (hrst : i.rst = false) :
    (takenRecord i D).toList ++ heldRecords (nextDecoder i D).out =
      heldRecords D.out ++ ((acceptedSymbol i D).bind (rowRecord D)).toList := by
  have hload : ((((acceptedSymbol i D).bind (rowRecord D)).map (recordOf W)).toList.map decRecordOf) =
      ((acceptedSymbol i D).bind (rowRecord D)).toList := by
    cases hr : (acceptedSymbol i D).bind (rowRecord D) with
    | none => rfl
    | some r =>
      obtain ⟨sym, -, hsym⟩ := Option.bind_eq_some_iff.mp hr
      simp [decRecordOf_recordOf hW hsym]
  rw [heldRecords, nextDecoder_out hrst, ← hload]
  refine taken_append_offered decRecordOf ov_of_outFire fun h =>
    outFire_of_inFire (inFire_of_isSome_acceptedSymbol (D := D) ?_)
  rw [Option.isSome_map] at h
  exact Option.isSome_of_isSome_bind h

/-- R63 for the decoder. -/
theorem records_run (hW : 2 ≤ W) {is : List (Inputs W)} (D : Decoder W) (hrst : ∀ i ∈ is, i.rst = false) :
    recordsTaken is D ++ heldRecords (decoderAfter is D).out =
      heldRecords D.out ++ recordsLoaded (symbolsAccepted is D) D := by
  induction is generalizing D with
  | nil => simp
  | cons i is ih =>
    have hi := hrst i (by simp)
    have htail := ih (nextDecoder i D) fun j hj => hrst j (by simp [hj])
    rw [recordsTaken_cons, decoderAfter_cons, symbolsAccepted_cons, List.append_assoc, htail, ← List.append_assoc,
      records_edge hW D hi, List.append_assoc]
    cases hsym : acceptedSymbol i D with
    | none =>
      rw [nextDecoder_of_no_symbol hi hsym, recordsLoaded_out]
      rfl
    | some sym =>
      rw [nextDecoder_of_symbol hi hsym]
      rfl

/-- Where the invariant holds, the rows are those of the table run. -/
theorem recordsLoaded_eq_fsmRun {D : Decoder W} (h : FsmInv (LMAX W) (fsmView D)) (syms : List Instr) :
    recordsLoaded syms D = (fsmRun (LMAX W) (fsmView D) syms).2 := by
  induction syms generalizing D with
  | nil => rfl
  | cons sym syms ih =>
    have hview := fsmView_afterSymbol h sym
    rw [recordsLoaded_cons, ih (hview ▸ fsmInv_fsmTable h sym), hview]
    rfl
end

/-- Settles O39: the fields by `run_follows_table`, the records by `records_run`. -/
theorem recordsFollowSymbols : Obligations.RecordsFollowSymbols := by
  rintro ⟨p, e, d, l⟩ k hinv hrst
  obtain ⟨e', d', hrun, hview⟩ := run_follows_table k p e d l hinv hrst
  refine ⟨e', d', hrun, hview, ?_⟩
  rw [run_eq] at hrun
  cases hrun
  rw [decOuts_trace, decIns_trace, ← recordsLoaded_eq_fsmRun hinv.fsmInv]
  exact records_run p.two_le_W d hrst

/-! ## Operations run with no stall (R85) -/

/-- The word of an operation of the encoder, as a number. -/
def wordOf : Instr → Option Nat
  | .enc _ d => some d.toNat
  | .dbit0 | .dbit1 | .dend | .drsv => none

/-- The symbol of an operation of the decoder. -/
def symbolOf (op : Instr) : Option Instr := if isSymbol op then some op else none

theorem filterMap_symbolOf (ops : List Instr) : ops.filterMap symbolOf = ops.filter isSymbol := by
  rw [← List.filterMap_eq_filter]
  rfl

section
variable {W : Nat} (E : Encoder W) (D : Decoder W)

theorem acceptedWord_transferEdge {op : Instr} (hop : wellFormed W op = true) :
    (acceptedWord (transferEdge W true true op) E).map BitVec.toNat = wordOf op := by
  cases op with
  | enc w x =>
    obtain rfl : w = W := by simpa [wellFormed] using hop
    simp [acceptedWord, transferEdge, quietEdge, idleInputs, inFire, inReady, wordOf]
  | dbit0 | dbit1 | dend | drsv => rfl

theorem acceptedSymbol_transferEdge (op : Instr) :
    acceptedSymbol (transferEdge W true true op) D = symbolOf op := by
  cases op with
  | enc => rfl
  | dbit0 | dbit1 | dend | drsv =>
    simp [acceptedSymbol, transferEdge, symbolEdge, quietEdge, idleInputs, inFire, inReady, symbolOf, isSymbol]
    rfl

/-- A quiet edge with `out_ready` at 1 empties the output register. -/
theorem nextEncoder_quietEdge (decReady : Bool) : (nextEncoder (quietEdge W true decReady) E).out.ov = false := by
  cases h : E.out.ov <;> simp [nextEncoder, quietEdge, idleInputs, inFire, outFire, h]

theorem nextDecoder_quietEdge (encReady : Bool) : (nextDecoder (quietEdge W encReady true) D).out.ov = false := by
  cases h : D.out.ov <;> simp [nextDecoder, quietEdge, idleInputs, inFire, outFire, h]

theorem rst_of_mem_runEdges {ops : List Instr} {i : Inputs W} (h : i ∈ runEdges W ops) : i.rst = false := by
  simp only [runEdges, List.mem_append, List.mem_map, List.mem_singleton] at h
  obtain ⟨op, -, rfl⟩ | rfl := h
  · cases op <;> rfl
  · rfl

theorem runEdges_cons (op : Instr) (ops : List Instr) :
    runEdges W (op :: ops) = transferEdge W true true op :: runEdges W ops := rfl

theorem wordsAccepted_runEdges {ops : List Instr} (hops : ∀ op ∈ ops, wellFormed W op = true) :
    wordsAccepted (runEdges W ops) E = ops.filterMap wordOf := by
  induction ops generalizing E with
  | nil => rfl
  | cons op ops ih =>
    rw [runEdges_cons, wordsAccepted_cons, filterMap_cons_toList, acceptedWord_transferEdge E (hops op (by simp)),
      ih _ fun x hx => hops x (by simp [hx])]

theorem symbolsAccepted_runEdges (ops : List Instr) :
    symbolsAccepted (runEdges W ops) D = ops.filterMap symbolOf := by
  induction ops generalizing D with
  | nil => rfl
  | cons op ops ih =>
    rw [runEdges_cons, symbolsAccepted_cons, filterMap_cons_toList, acceptedSymbol_transferEdge, ih]
end

theorem heldRecords_of_empty {W : Nat} {r : OutReg (Record W)} (h : r.ov = false) : heldRecords r = [] := by
  simp [heldRecords, offered, h]

theorem heldResponses_of_empty {W : Nat} {r : OutReg (Response W)} (h : r.ov = false) : heldResponses r = [] := by
  simp [heldResponses, offered, h]

/-! ## What the units take of a run that empties their output registers -/

section
variable {W : Nat} {is : List (Inputs W)}

theorem responsesTaken_of_emptied {E : Encoder W} (hrst : ∀ i ∈ is, i.rst = false)
    (hempty : (encoderAfter is E).out.ov = false) :
    responsesTaken is E = heldResponses E.out ++ answers W (wordsAccepted is E) := by
  have hrun := responses_run E hrst
  rwa [heldResponses_of_empty hempty, List.append_nil] at hrun

theorem recordsTaken_of_emptied (hW : 2 ≤ W) {D : Decoder W} (hrst : ∀ i ∈ is, i.rst = false)
    (hempty : (decoderAfter is D).out.ov = false) :
    recordsTaken is D = heldRecords D.out ++ recordsLoaded (symbolsAccepted is D) D := by
  have hrun := records_run hW D hrst
  rwa [heldRecords_of_empty hempty, List.append_nil] at hrun
end

section
variable (p : Params) (e : Encoder p.W) (d : Decoder p.W) (l : List (Inputs p.W))

theorem runInstrs_eq (ops : List Instr) :
    runInstrs ⟨p, e, d, l⟩ ops = trace (runEdges p.W ops).length ⟨p, e, d, runEdges p.W ops⟩ := by
  have hlen : (runEdges p.W ops).length = ops.length + 1 := by simp [runEdges]
  rw [hlen]
  rfl

/-- R63, R85: the responses of an unstalled run. -/
theorem encOuts_runInstrs {ops : List Instr} (hops : ∀ op ∈ ops, wellFormed p.W op = true) :
    encOuts (runInstrs ⟨p, e, d, l⟩ ops) = heldResponses e.out ++ answers p.W (ops.filterMap wordOf) := by
  have hempty : (encoderAfter (runEdges p.W ops) e).out.ov = false := by
    rw [runEdges, encoderAfter_concat]
    exact nextEncoder_quietEdge _ true
  rw [runInstrs_eq, encOuts_trace, List.take_length, responsesTaken_of_emptied (fun _ => rst_of_mem_runEdges) hempty,
    wordsAccepted_runEdges e hops]

/-- R63, R85: the records of an unstalled run. -/
theorem decOuts_runInstrs (ops : List Instr) :
    decOuts (runInstrs ⟨p, e, d, l⟩ ops) = heldRecords d.out ++ recordsLoaded (ops.filterMap symbolOf) d := by
  have hempty : (decoderAfter (runEdges p.W ops) d).out.ov = false := by
    rw [runEdges, decoderAfter_concat]
    exact nextDecoder_quietEdge _ true
  rw [runInstrs_eq, decOuts_trace, List.take_length,
    recordsTaken_of_emptied p.two_le_W (fun _ => rst_of_mem_runEdges) hempty, symbolsAccepted_runEdges]

/-- The records of the symbols of an unstalled run, by the table where the invariant holds. -/
theorem ownRecords_eq_fsmRun (h : FsmInv (LMAX p.W) (fsmView d)) {syms : List Instr}
    (hsyms : ∀ sym ∈ syms, isSymbol sym = true) :
    ownRecords ⟨p, e, d, l⟩ syms = (fsmRun (LMAX p.W) (fsmView d) syms).2 := by
  rw [ownRecords, decOuts_runInstrs, List.drop_left, filterMap_symbolOf, List.filter_eq_self.mpr hsyms,
    recordsLoaded_eq_fsmRun h]
end

/-! ## The records of a frame (R64, R161) -/

section
variable {lmax : Nat} {v : FsmView}

/-- R158: only `DEND` has a DONE record. -/
theorem fsmTable_record_of_ne_dend {sym : Instr} (h : sym ≠ .dend) :
    ∃ x : Option Nat, (fsmTable lmax v sym).2 = x.map .value := by
  have hbit (b : Bool) : ∃ x : Option Nat, (tableOffsetBit v b).2 = x.map .value := by
    by_cases hlast : v.cnt = 1
    · exact ⟨some (2 * v.acc + b.toNat), by simp [tableOffsetBit, hlast]⟩
    · exact ⟨none, by simp [tableOffsetBit, hlast]⟩
  obtain ⟨fs, cnt, acc, err⟩ := v
  cases sym with
  | dend => exact absurd rfl h
  | enc | drsv => exact ⟨none, by cases fs <;> rfl⟩
  | dbit0 =>
    cases fs with
    | scanPrefix => exact ⟨none, by simp only [fsmTable]; split <;> rfl⟩
    | readOffset => exact hbit false
    | drain => exact ⟨none, rfl⟩
  | dbit1 =>
    cases fs with
    | scanPrefix => exact ⟨if cnt = 0 then some 1 else none, by simp only [fsmTable]; split <;> rfl⟩
    | readOffset => exact hbit true
    | drain => exact ⟨none, rfl⟩

theorem fsmRun_records_of_no_dend {syms : List Instr} (h : ∀ sym ∈ syms, sym ≠ .dend) :
    ∃ vs : List Nat, (fsmRun lmax v syms).2 = vs.map .value := by
  induction syms generalizing v with
  | nil => exact ⟨[], rfl⟩
  | cons sym syms ih =>
    obtain ⟨x, hx⟩ := fsmTable_record_of_ne_dend (lmax := lmax) (v := v) (h sym (by simp))
    obtain ⟨vs, hvs⟩ := ih (v := (fsmTable lmax v sym).1) fun s hs => h s (by simp [hs])
    exact ⟨x.toList ++ vs, by rw [fsmRun_cons, hx, hvs, List.map_append, Option.toList_map]⟩

theorem fsmTable_dend_record : ∃ outcome, (fsmTable lmax v .dend).2 = some (.done outcome) := by
  obtain ⟨fs, cnt, acc, err⟩ := v
  cases fs <;> exact ⟨_, rfl⟩
end

/-- Settles O41: the frame's records are those of the table run, and its last row is that of `DEND`. -/
theorem frameEndsInOneDoneRecord : Obligations.FrameEndsInOneDoneRecord := by
  rintro ⟨p, e, d, l⟩ syms hstart hsyms
  have hinv : FsmInv (LMAX p.W) (fsmView d) := by
    rw [show fsmView d = .atBoundary from hstart]
    exact fsmInv_atBoundary
  have hframe : ∀ sym ∈ syms ++ [.dend], isSymbol sym = true := by
    simpa [or_imp, forall_and, isSymbol] using fun sym hsym => (hsyms sym hsym).1
  obtain ⟨vs, hvs⟩ := fsmRun_records_of_no_dend (lmax := LMAX p.W) (v := fsmView d) fun sym hsym => (hsyms sym hsym).2
  obtain ⟨outcome, hdone⟩ := fsmTable_dend_record (lmax := LMAX p.W) (v := (fsmRun (LMAX p.W) (fsmView d) syms).1)
  refine ⟨vs, outcome, ?_, ?_⟩
  · rw [ownRecords_eq_fsmRun p e d l hinv fun sym hsym => (hsyms sym hsym).1, hvs]
  · rw [ownRecords_eq_fsmRun p e d l hinv hframe, fsmRun_append, hvs, fsmRun_cons, hdone]
    rfl

/-! ## The programs of the host (R84, R85): what waits is accepted in order -/

/-- The word that an action transfers, as a number. -/
def HostAction.word (a : HostAction) : Option Nat := a.op.bind wordOf

/-- The symbol that an action transfers. -/
def HostAction.symbol (a : HostAction) : Option Instr := a.op.bind symbolOf

theorem transfer_of_op {a : HostAction} {op : Instr} (h : a.op = some op) : a = .transfer op := by
  cases a with
  | transfer op' =>
    cases h
    rfl
  | idle | reset | stallE | stallD | takeE | takeD => cases h

section
variable {W : Nat}

/-- The words that wait, as numbers, the one on offer first. -/
def HostState.words (h : HostState W) : List Nat := h.encOffers.map BitVec.toNat

/-- The symbols that wait, the one on offer first. -/
def HostState.symbols (h : HostState W) : List Instr := h.decOffers.map decodeSym

/-- An edge offers on each channel the first payload that waits, or nothing. -/
structure HostState.Offers (h : HostState W) (i : Inputs W) : Prop where
  word : i.encInValid = true → h.encOffers.head? = some i.encInData
  symbol : i.decInValid = true → h.decOffers.head? = some i.decInSym

theorem head?_of_not_isEmpty {α : Type} {l : List α} {x : α} (h : (!l.isEmpty) = true) :
    l.head? = some (l.headD x) := by
  cases l with
  | nil => cases h
  | cons => rfl

theorem offers_offering (h : HostState W) : h.Offers h.offering := ⟨head?_of_not_isEmpty, head?_of_not_isEmpty⟩

theorem offers_quiet (h : HostState W) (rst : Bool) : h.Offers { h.quiet with rst := rst } := ⟨nofun, nofun⟩

/-- R231: an offer ends exactly where its payload is accepted. -/
theorem accepted_append_waiting {α : Type} {fire : Bool} {x : α} {waiting : List α}
    (h : fire = true → waiting.head? = some x) :
    (if fire then some x else none).toList ++ (if fire then waiting.tail else waiting) = waiting := by
  cases fire with
  | false => rfl
  | true =>
    obtain ⟨rest, rfl⟩ := List.head?_eq_some_iff.mp (h rfl)
    rfl

end

section
variable {s : State} {h : HostState s.params.W} {i : Inputs s.params.W}

theorem words_after (hi : h.Offers i) :
    ((acceptedWord i s.enc).map BitVec.toNat).toList ++ (h.after i s).words = h.words := by
  have hwait : (acceptedWord i s.enc).toList ++ (h.after i s).encOffers = h.encOffers :=
    accepted_append_waiting fun hin => hi.word (inFire_iff.mp hin).1
  rw [Option.toList_map, HostState.words, HostState.words, ← List.map_append, hwait]

theorem symbols_after (hi : h.Offers i) : (acceptedSymbol i s.dec).toList ++ (h.after i s).symbols = h.symbols := by
  have hsym : acceptedSymbol i s.dec =
      (if inFire i.rst i.decInValid s.dec.out.ov i.decOutReady then some i.decInSym else none).map decodeSym := by
    rw [acceptedSymbol, Option.map_if]
  have hwait : _ ++ (h.after i s).decOffers = h.decOffers :=
    accepted_append_waiting fun hin => hi.symbol (inFire_iff.mp hin).1
  rw [hsym, Option.toList_map, HostState.symbols, HostState.symbols, ← List.map_append, hwait]

/-- R53: with both `out_ready` inputs at 1 an edge accepts one payload of each channel on which any waits. -/
theorem offers_after_offering (he : h.encReady = true) (hd : h.decReady = true) :
    (h.after h.offering s).encOffers = h.encOffers.tail ∧ (h.after h.offering s).decOffers = h.decOffers.tail := by
  have haccept {α : Type} (waiting : List α) (ov : Bool) :
      (if inFire false (!waiting.isEmpty) ov true then waiting.tail else waiting) = waiting.tail := by
    cases waiting <;> simp [inFire, inReady]
  simp only [HostState.after, offering_rst, offering_encOutReady, offering_decOutReady, offering_encInValid,
    offering_decInValid, he, hd, haccept, and_self]
end

section
variable {W : Nat} {h : HostState W} {i : Inputs W}

/-! ### One action -/

theorem words_act {a : HostAction} (ha : ∀ op, a = .transfer op → wellFormed W op = true) :
    (h.act a).1.words = h.words ++ a.word.toList := by
  cases a with
  | transfer op =>
    cases op with
    | enc w x =>
      obtain rfl : w = W := by simpa [wellFormed] using ha _ rfl
      simp [HostState.act, HostState.offer, HostState.words, HostAction.word, HostAction.op, wordOf]
    | dbit0 | dbit1 | dend | drsv => exact (List.append_nil _).symm
  | idle | reset | stallE | stallD | takeE | takeD => exact (List.append_nil _).symm

theorem symbols_act (a : HostAction) : (h.act a).1.symbols = h.symbols ++ a.symbol.toList := by
  cases a with
  | transfer op =>
    cases op with
    | enc => exact (List.append_nil _).symm
    | dbit0 | dbit1 | dend | drsv => exact List.map_append
  | idle | reset | stallE | stallD | takeE | takeD => exact (List.append_nil _).symm

/-- The `out_ready` inputs that an action leaves are those that `stallsMatched` goes on with. -/
theorem stallsMatched_act (a : HostAction) (as : List HostAction) :
    stallsMatched h.encReady h.decReady (a :: as) =
      stallsMatched (h.act a).1.encReady (h.act a).1.decReady as := by
  cases a with
  | transfer op => cases op <;> rfl
  | idle | reset | stallE | stallD | takeE | takeD => rfl

theorem offers_act {a : HostAction} (hi : (h.act a).2 = some i) : (h.act a).1.Offers i := by
  cases a with
  | stallE | stallD => cases hi
  | transfer op =>
    obtain rfl : (h.offer op).offering = i := by simpa [HostState.act] using hi
    exact offers_offering _
  | idle =>
    cases hi
    exact offers_quiet h false
  | reset =>
    cases hi
    exact offers_quiet h true
  | takeE | takeD =>
    cases hi
    exact offers_offering _

theorem rst_of_act {a : HostAction} (hi : (h.act a).2 = some i) (ha : a ≠ .reset) : i.rst = false := by
  cases a with
  | reset => exact absurd rfl ha
  | stallE | stallD => cases hi
  | transfer | idle | takeE | takeD =>
    cases hi
    rfl
end

/-! ### The edges of a program, one after the other -/

/-- The edges `is` on the units `E` and `D` carry out the rest `as` of a program from `h`: each channel accepts the first
of the payloads that wait or are yet to come, and all of them, the last record taken too, when the stalls are matched. -/
structure CarriesOut {W : Nat} (h : HostState W) (E : Encoder W) (D : Decoder W) (as : List HostAction)
    (is : List (Inputs W)) : Prop where
  words : wordsAccepted is E <+: h.words ++ as.filterMap HostAction.word
  symbols : symbolsAccepted is D <+: h.symbols ++ as.filterMap HostAction.symbol
  all : stallsMatched h.encReady h.decReady as = true →
    wordsAccepted is E = h.words ++ as.filterMap HostAction.word ∧
    symbolsAccepted is D = h.symbols ++ as.filterMap HostAction.symbol ∧
    (encoderAfter is E).out.ov = false ∧ (decoderAfter is D).out.ov = false

section
variable {p : Params} {e : Encoder p.W} {d : Decoder p.W} {l : List (Inputs p.W)} {h : HostState p.W}
  {as : List HostAction} {is : List (Inputs p.W)}

/-- The last edge, at which nothing waits unless a stall is open. -/
theorem carriesOut_quiet (hnone : h.encReady = true → h.decReady = true → h.encOffers = [] ∧ h.decOffers = []) :
    CarriesOut h e d [] [h.quiet] := by
  have hw : wordsAccepted [h.quiet] e = [] := rfl
  have hs : symbolsAccepted [h.quiet] d = [] := rfl
  refine ⟨hw ▸ List.nil_prefix, hs ▸ List.nil_prefix, fun hready => ?_⟩
  obtain ⟨he, hd⟩ : h.encReady = true ∧ h.decReady = true := by simpa [stallsMatched] using hready
  obtain ⟨hwords, hsymbols⟩ := hnone he hd
  rw [hw, hs, HostState.words, HostState.symbols, hwords, hsymbols, HostState.quiet, he, hd]
  exact ⟨rfl, rfl, nextEncoder_quietEdge e true, nextDecoder_quietEdge d true⟩

/-- One edge that offers what waits. -/
theorem carriesOut_edge {i : Inputs p.W} (hi : h.Offers i)
    (hrest : CarriesOut (h.after i ⟨p, e, d, l⟩) (nextEncoder i e) (nextDecoder i d) as is) :
    CarriesOut h e d as (i :: is) := by
  obtain ⟨hwords, hsymbols, hall⟩ := hrest
  refine ⟨?_, ?_, fun hm => ?_⟩
  · rw [wordsAccepted_cons, ← words_after (s := ⟨p, e, d, l⟩) hi, List.append_assoc]
    exact (List.prefix_append_right_inj _).mpr hwords
  · rw [symbolsAccepted_cons, ← symbols_after (s := ⟨p, e, d, l⟩) hi, List.append_assoc]
    exact (List.prefix_append_right_inj _).mpr hsymbols
  · obtain ⟨hw, hs, hempty⟩ := hall hm
    rw [wordsAccepted_cons, hw, symbolsAccepted_cons, hs, ← List.append_assoc, ← List.append_assoc,
      words_after (s := ⟨p, e, d, l⟩) hi, symbols_after (s := ⟨p, e, d, l⟩) hi]
    exact ⟨rfl, rfl, hempty⟩

/-- One action, before the edge that it may drive. -/
theorem carriesOut_act {a : HostAction} (ha : ∀ op, a = .transfer op → wellFormed p.W op = true)
    (hrest : CarriesOut (h.act a).1 e d as is) : CarriesOut h e d (a :: as) is := by
  obtain ⟨hwords, hsymbols, hall⟩ := hrest
  rw [words_act ha, List.append_assoc, ← filterMap_cons_toList] at hwords hall
  rw [symbols_act, List.append_assoc, ← filterMap_cons_toList] at hsymbols hall
  exact ⟨hwords, hsymbols, fun hm => hall (stallsMatched_act a as ▸ hm)⟩

/-- The end of a program: what still waits is accepted at the edges that follow, if these are enough. -/
theorem carriesOut_waitEdges {n : Nat} (hn : h.encReady = true → h.decReady = true →
      h.encOffers.length ≤ n ∧ h.decOffers.length ≤ n) :
    CarriesOut h e d [] (waitEdges n h ⟨p, e, d, l⟩ ++ [h.quiet]) := by
  induction n generalizing h e d with
  | zero =>
    exact carriesOut_quiet fun he hd => by simpa using hn he hd
  | succ n ih =>
    rw [waitEdges_succ]
    refine carriesOut_edge (offers_offering h) (l := l) (ih fun he hd => ?_)
    obtain ⟨hwords, hsymbols⟩ := offers_after_offering (s := ⟨p, e, d, l⟩) (h := h) he hd
    obtain ⟨hwn, hsn⟩ := hn he hd
    rw [hwords, hsymbols, List.length_tail, List.length_tail]
    omega

theorem carriesOut_edgesOf (has : ∀ op, .transfer op ∈ as → wellFormed p.W op = true) :
    CarriesOut h e d as (edgesOf h ⟨p, e, d, l⟩ as) := by
  induction as generalizing h e d with
  | nil =>
    rw [edgesOf_nil]
    exact carriesOut_waitEdges fun _ _ => ⟨le_max_left .., le_max_right ..⟩
  | cons a as ih =>
    have ihas (h' : HostState p.W) (e' d') := ih (h := h') (e := e') (d := d') fun op hop => has op (by simp [hop])
    refine carriesOut_act (fun op ha => has op (by simp [ha])) ?_
    cases hi : (h.act a).2 with
    | none =>
      rw [edgesOf_of_act_none (Prod.ext rfl hi)]
      exact ihas _ e d
    | some i =>
      rw [edgesOf_of_act_some p e d l (Prod.ext rfl hi)]
      exact carriesOut_edge (offers_act hi) (ihas _ _ _)

theorem rst_of_mem_waitEdges {n : Nat} {i : Inputs p.W} (hi : i ∈ waitEdges n h ⟨p, e, d, l⟩) : i.rst = false := by
  induction n generalizing h e d with
  | zero => cases hi
  | succ n ih =>
    rw [waitEdges_succ, List.mem_cons] at hi
    obtain rfl | hi := hi
    · rfl
    · exact ih hi

/-- Only `RESET` drives an edge with `rst` at 1. -/
theorem rst_of_mem_edgesOf (has : HostAction.reset ∉ as) {i : Inputs p.W} (hi : i ∈ edgesOf h ⟨p, e, d, l⟩ as) :
    i.rst = false := by
  induction as generalizing h e d with
  | nil =>
    rw [edgesOf_nil, List.mem_append, List.mem_singleton] at hi
    obtain hi | rfl := hi
    · exact rst_of_mem_waitEdges hi
    · rfl
  | cons a as ih =>
    obtain ⟨ha, has⟩ := not_or.mp (List.mem_cons.not.mp has)
    cases hact : (h.act a).2 with
    | none =>
      rw [edgesOf_of_act_none (Prod.ext rfl hact)] at hi
      exact ih has hi
    | some j =>
      rw [edgesOf_of_act_some p e d l (Prod.ext rfl hact), List.mem_cons] at hi
      obtain rfl | hi := hi
      · exact rst_of_act hact (Ne.symm ha)
      · exact ih has hi
end

section
variable (p : Params) (e : Encoder p.W) (d : Decoder p.W) (l : List (Inputs p.W))

theorem carriesOut_programEdges {as : List HostAction} (has : ∀ op, .transfer op ∈ as → wellFormed p.W op = true) :
    CarriesOut (HostState.start p.W) e d as (programEdges ⟨p, e, d, l⟩ as) := carriesOut_edgesOf has

theorem programTransfers_eq (as : List HostAction) :
    programTransfers ⟨p, e, d, l⟩ as =
      trace (programEdges ⟨p, e, d, l⟩ as).length ⟨p, e, d, programEdges ⟨p, e, d, l⟩ as⟩ := rfl
end

theorem filterMap_word (as : List HostAction) :
    as.filterMap HostAction.word = (as.filterMap HostAction.op).filterMap wordOf :=
  (List.filterMap_filterMap ..).symm

theorem filterMap_symbol (as : List HostAction) :
    as.filterMap HostAction.symbol = (as.filterMap HostAction.op).filterMap symbolOf :=
  (List.filterMap_filterMap ..).symm

/-- Settles O54: `carriesOut_programEdges`, on the run of the edges listed. -/
theorem programTransfersEveryOperation : Obligations.ProgramTransfersEveryOperation := by
  rintro ⟨p, e, d, l⟩ as has
  obtain ⟨hwords, hsymbols, hall⟩ := carriesOut_programEdges p e d l has
  rw [filterMap_word] at hwords hall
  rw [filterMap_symbol, filterMap_symbolOf] at hsymbols hall
  have hrun := run_eq (programEdges ⟨p, e, d, l⟩ as).length p e d (programEdges ⟨p, e, d, l⟩ as)
  rw [List.take_length, List.drop_length] at hrun
  rw [programTransfers_eq, encIns_trace, decIns_trace, List.take_length]
  refine ⟨trace_length .., hsymbols, hwords, fun hm => ?_⟩
  obtain ⟨hw, hs, hempty⟩ := hall hm
  exact ⟨hs, hw, _, _, hrun, hempty⟩

/-- Settles O56: with both output registers empty at the end, the records taken are the one held at the start and those of
the words and symbols accepted, which are the same with and without the stalls. -/
theorem stallsChangeNoRecord : Obligations.StallsChangeNoRecord := by
  rintro ⟨p, e, d, l⟩ as has hreset hm
  have hrst (i) (hi : i ∈ programEdges ⟨p, e, d, l⟩ as) : i.rst = false := rst_of_mem_edgesOf hreset hi
  have hops : ∀ op ∈ as.filterMap HostAction.op, wellFormed p.W op = true := by
    intro op hop
    obtain ⟨a, ha, haop⟩ := List.mem_filterMap.mp hop
    exact has op (transfer_of_op haop ▸ ha)
  obtain ⟨hw, hs, henc, hdec⟩ := (carriesOut_programEdges p e d l has).all hm
  rw [programTransfers_eq, encOuts_trace, decOuts_trace, List.take_length, responsesTaken_of_emptied hrst henc,
    recordsTaken_of_emptied p.two_le_W hrst hdec, encOuts_runInstrs p e d l hops, decOuts_runInstrs, hw, hs,
    filterMap_word, filterMap_symbol]
  exact ⟨rfl, rfl⟩

end Sys2Proof.Machine
end

section
/-! PROOFS. What each payload selects (30_encoding.md R73, R83), the gamma code (R78 to R81), `ENCSEQ` on the machine
(40_encoder.md R121), the ranges of the records on the ports (R72, R74, R75), and programs without stalls (R85). -/

namespace Sys2Proof.Machine

open Sys2Proof.Config

/-! ## The gamma code (R78 to R81) -/

theorem lowBits_succ (n x : Nat) : lowBits (n + 1) x = x.testBit n :: lowBits n x := by
  simp [lowBits, List.range_succ]

/-- The bits above all those of `x` are zeros. -/
theorem lowBits_add_of_lt {n x : Nat} (h : x < 2 ^ n) (k : Nat) :
    lowBits (k + n) x = List.replicate k false ++ lowBits n x := by
  induction k with
  | zero => simp
  | succ k ih =>
    have hbit : x.testBit (k + n) = false :=
      Nat.testBit_lt_two_pow (h.trans_le (Nat.pow_le_pow_right (by omega) (by omega)))
    rw [Nat.add_right_comm, lowBits_succ, hbit, ih, List.replicate_succ, List.cons_append]

theorem val_cons (b : Bool) (t : BitString) : val (b :: t) = 2 ^ t.length * b.toNat + val t := by
  induction t using List.reverseRecOn with
  | nil => simp [val]
  | append_singleton t c ih =>
    rw [← List.cons_append, val_concat, ih, val_concat, List.length_append, List.length_singleton, Nat.pow_succ']
    ring

theorem val_lowBits (n x : Nat) : val (lowBits n x) = x % 2 ^ n := by
  induction n with
  | zero => simp [lowBits, Nat.mod_one]
  | succ n ih => rw [lowBits_succ, val_cons, lowBits_length, ih, Nat.mod_pow_succ, Nat.toNat_testBit, Nat.add_comm]

/-- R10: a bit string is read back off any number that it ends. -/
theorem lowBits_length_val (t : BitString) (a : Nat) : lowBits t.length (2 ^ t.length * a + val t) = t := by
  induction t generalizing a with
  | nil => rfl
  | cons b t ih =>
    have hsplit : 2 ^ (t.length + 1) * a + (2 ^ t.length * b.toNat + val t) =
        2 ^ t.length * (2 * a + b.toNat) + val t := by ring
    have hbit : (2 ^ t.length * (2 * a + b.toNat) + val t).testBit t.length = b := by
      rw [Nat.testBit_two_pow_mul_add _ (val_lt_two_pow t)]
      cases b <;> simp
    rw [val_cons, List.length_cons, hsplit, lowBits_succ, hbit, ih]

theorem bitlen_two_pow_add {n y : Nat} (h : y < 2 ^ n) : bitlen (2 ^ n + y) = n + 1 := by
  have hle : bitlen (2 ^ n + y) ≤ n + 1 := bitlen_le_iff.mpr (by omega)
  have hgt : ¬ bitlen (2 ^ n + y) ≤ n := fun hn => by
    have := bitlen_le_iff.mp hn
    omega
  omega

section
variable {x y : Nat}

/-- The most significant bit of `bin x` is a 1. -/
theorem bin_of_pos (h : 1 ≤ x) : bin x = true :: lowBits (bitlen x - 1) x := by
  rw [bin, bitlen_of_pos h, lowBits_succ, Nat.testBit_log2 (Nat.ne_of_gt h), Nat.add_sub_cancel]

theorem offsetString_of_pos (h : 1 ≤ x) : offsetString x = lowBits (bitlen x - 1) x := by
  rw [offsetString, bin_of_pos h, List.drop_one, List.tail_cons]

/-- R78: an integer is its leading 1 and its offset. -/
theorem eq_two_pow_add_val_offsetString (h : 1 ≤ x) : x = 2 ^ (bitlen x - 1) + val (offsetString x) := by
  have hlo := two_pow_le_of_pos h
  have hhi := lt_two_pow_bitlen x
  have hN : 1 ≤ bitlen x := by simp [bitlen_of_pos h]
  have hdouble : 2 * 2 ^ (bitlen x - 1) = 2 ^ bitlen x := mul_pow_sub_one (by omega) 2
  rw [offsetString_of_pos h, val_lowBits, Nat.mod_eq_sub_mod hlo, Nat.mod_eq_of_lt (by omega)]
  omega
end

/-- Settles O3: the scan of the low-order bits of `x` begins at its most significant 1. -/
theorem gammaCodeIsZerosThenBinary : Obligations.GammaCodeIsZerosThenBinary := by
  intro x h
  have hbin : bin x = [true] ++ offsetString x := by
    rw [offsetString_of_pos h]
    exact bin_of_pos h
  have hcode : gammaCode x = List.replicate (bitlen x - 1) false ++ bin x := by
    rw [gammaCode, List.append_assoc, hbin]
  refine ⟨offsetString_of_pos h, hbin, hcode, ?_⟩
  rw [hcode, List.length_append, List.length_replicate, bin_length]
  omega

theorem leadingZeros_zeros_one (L : Nat) (t : BitString) :
    leadingZeros (List.replicate L false ++ true :: t) = L := by
  induction L with
  | zero => rfl
  | succ L ih => rw [List.replicate_succ, List.cons_append, leadingZeros_zero, ih]

/-- The first 1 of a string ends its zeros, so these and what follows are determined. -/
theorem zeros_one_inj {L M : Nat} {s t : BitString}
    (h : List.replicate L false ++ true :: s = List.replicate M false ++ true :: t) : L = M ∧ s = t := by
  have hL : L = M := by
    rw [← leadingZeros_zeros_one L s, h, leadingZeros_zeros_one]
  subst hL
  exact ⟨rfl, List.tail_eq_of_cons_eq (List.append_cancel_left h)⟩

/-- R80: a string begins with one code at most, and what follows it is determined. -/
theorem gammaCode_append_inj {x y : Nat} {u v : BitString} (hx : 1 ≤ x) (hy : 1 ≤ y)
    (h : gammaCode x ++ u = gammaCode y ++ v) : x = y ∧ u = v := by
  simp only [gammaCode, List.append_assoc, List.cons_append, List.nil_append] at h
  obtain ⟨hzeros, hrest⟩ := zeros_one_inj h
  have hlen : (offsetString x).length = (offsetString y).length := by
    rw [offsetString_of_pos hx, offsetString_of_pos hy, lowBits_length, lowBits_length, hzeros]
  obtain ⟨hoffset, huv⟩ := List.append_inj hrest hlen
  refine ⟨?_, huv⟩
  rw [eq_two_pow_add_val_offsetString hx, eq_two_pow_add_val_offsetString hy, hzeros, hoffset]

theorem gammaCode_inj {x y : Nat} (hx : 1 ≤ x) (hy : 1 ≤ y) (h : gammaCode x = gammaCode y) : x = y :=
  (gammaCode_append_inj (u := []) (v := []) hx hy (by rw [h])).1

theorem gammaCode_ne_nil (x : Nat) : gammaCode x ≠ [] := by
  simp [gammaCode]

theorem flatMap_gammaCode_inj {xs ys : List Nat} (hxs : ∀ x ∈ xs, 1 ≤ x) (hys : ∀ y ∈ ys, 1 ≤ y)
    (h : xs.flatMap gammaCode = ys.flatMap gammaCode) : xs = ys := by
  induction xs generalizing ys with
  | nil =>
    cases ys with
    | nil => rfl
    | cons y ys => simp [gammaCode_ne_nil] at h
  | cons x xs ih =>
    cases ys with
    | nil => simp [gammaCode_ne_nil] at h
    | cons y ys =>
      rw [List.flatMap_cons, List.flatMap_cons] at h
      obtain ⟨rfl, htail⟩ := gammaCode_append_inj (hxs x (by simp)) (hys y (by simp)) h
      rw [ih (fun z hz => hxs z (by simp [hz])) (fun z hz => hys z (by simp [hz])) htail]

/-- Settles O4: one code at a time is split off, by `gammaCode_append_inj`. -/
theorem gammaCodeIsPrefixFree : Obligations.GammaCodeIsPrefixFree := by
  refine ⟨fun x y hx hy hprefix => ?_, fun xs ys => flatMap_gammaCode_inj⟩
  obtain ⟨u, hu⟩ := hprefix
  exact (gammaCode_append_inj (v := []) hx hy (by rw [hu, List.append_nil])).1

/-- R81: the zeros, a 1 and as many bits are the code of the 1 and these bits, read as a number. -/
theorem gammaCode_two_pow_add_val (t : BitString) :
    gammaCode (2 ^ t.length + val t) = List.replicate t.length false ++ [true] ++ t := by
  have hlen := bitlen_two_pow_add (val_lt_two_pow t)
  have hbits := lowBits_length_val t 1
  rw [Nat.mul_one] at hbits
  rw [gammaCode, offsetString_of_pos (Nat.one_le_two_pow.trans (Nat.le_add_right ..)), hlen, Nat.add_sub_cancel, hbits]

/-- Settles O5: the code of `x` has this form with its offset for `t`, and `gammaCode_two_pow_add_val` is the converse. -/
theorem completeCodeForm : Obligations.CompleteCodeForm := by
  have hpos (t : BitString) : 1 ≤ 2 ^ t.length + val t := Nat.one_le_two_pow.trans (Nat.le_add_right ..)
  refine ⟨fun b => ⟨?_, ?_⟩, fun t => ⟨gammaCode_two_pow_add_val t, bitlen_two_pow_add (val_lt_two_pow t), ?_⟩⟩
  · rintro ⟨x, hx, rfl⟩
    exact ⟨bitlen x - 1, offsetString x, rfl, by rw [offsetString_of_pos hx, lowBits_length]⟩
  · rintro ⟨_, t, rfl, rfl⟩
    exact ⟨_, hpos t, gammaCode_two_pow_add_val t⟩
  · intro x hx hcode
    exact gammaCode_inj hx (hpos t) (hcode.trans (gammaCode_two_pow_add_val t).symm)

/-! ## `ENCSEQ` on the machine (R121) -/

section
variable {W : Nat} {d : BitVec W}

theorem responseTo_status_eq_invalidInput_iff : (responseTo d).status = .invalidInput ↔ d.toInt ≤ 0 := by
  have hvalid : validInput d = true ↔ 1 ≤ d.toInt := decide_eq_true_iff
  rw [responseTo]
  split
  next h =>
    have := hvalid.mp h
    exact iff_of_false nofun (by omega)
  next h =>
    have := hvalid.not.mp h
    exact iff_of_true rfl (by omega)

/-- R101: a valid word is the same number unsigned and signed. -/
theorem toNat_eq_toInt_toNat_of_valid (h : validInput d = true) : d.toNat = d.toInt.toNat := by
  have hpos : 0 < d.toInt := of_decide_eq_true h
  rw [BitVec.toInt_eq_toNat_of_lt (BitVec.toInt_pos_iff.mp hpos.le), Int.toNat_natCast]

/-- R108, R118: the response to a valid word, serialised, is its zeros and its binary form. -/
theorem serialise_responseTo (hW : 2 ≤ W) (h : validInput d = true) :
    serialise (encRecordOf (responseTo d)) =
      List.replicate (bitlen d.toInt.toNat - 1) false ++ bin d.toInt.toNat := by
  obtain ⟨hpos, -⟩ := toNat_bounds_of_valid h
  obtain ⟨hN, -⟩ := bitlen_bounds_of_valid h
  obtain ⟨-, hlen, hcode⟩ := okResponse_fields hW h
  have hvalue : 2 ^ (bitlen d.toNat - 1) + d.toNat % 2 ^ (bitlen d.toNat - 1) = d.toNat := by
    rw [← val_lowBits, ← offsetString_of_pos hpos, ← eq_two_pow_add_val_offsetString hpos]
  have hresponse : responseTo d = okResponse d := if_pos h
  have hsplit : 2 * bitlen d.toNat - 1 = bitlen d.toNat - 1 + bitlen d.toNat := by omega
  rw [← toNat_eq_toInt_toNat_of_valid h, hresponse]
  show lowBits (okResponse d).len.toNat (okResponse d).code.toNat = _
  rw [hlen, hcode, hvalue, hsplit, lowBits_add_of_lt (lt_two_pow_bitlen _), bin]
end

/-- R86, R120: what the host makes of a list of responses is `encode_sequence`, if each answers its integer. -/
theorem sequenceResult_map {respond : Int → EncRecord} {xs : List Int}
    (hstatus : ∀ x ∈ xs, (respond x).status = .invalidInput ↔ x ≤ 0)
    (hcode : ∀ x ∈ xs, 1 ≤ x →
      serialise (respond x) = List.replicate (bitlen x.toNat - 1) false ++ bin x.toNat) :
    sequenceResult (xs.map respond) = encodeSequence xs := by
  have hany : (xs.map respond).any (fun r => decide (r.status = .invalidInput)) =
      xs.any fun x => decide (x ≤ 0) := by
    rw [Bool.eq_iff_iff, List.any_map, List.any_eq_true, List.any_eq_true]
    exact exists_congr fun x => and_congr_right fun hx => by simp [hstatus x hx]
  rw [sequenceResult, encodeSequence, hany]
  split
  · rfl
  next hvalid =>
    have hpos : ∀ x ∈ xs, 0 < x := by simpa using hvalid
    rw [List.flatMap_map]
    exact congrArg Except.ok (List.flatMap_congr fun x hx => hcode x hx (hpos x hx))

theorem wellFormed_of_mem_encseqInstrs {W : Nat} {xs : List Int} : ∀ op ∈ encseqInstrs W xs, wellFormed W op = true := by
  simp [encseqInstrs, encInstr, wellFormed]

/-- R63: the responses to the words of an `ENCSEQ` answer its integers, one for one. -/
theorem ownResponses_encseqInstrs (p : Params) (e : Encoder p.W) (d : Decoder p.W) (l : List (Inputs p.W))
    (xs : List Int) :
    ownResponses ⟨p, e, d, l⟩ (encseqInstrs p.W xs) =
      xs.map fun x => encRecordOf (responseTo (BitVec.ofInt p.W x)) := by
  have hwords : (encseqInstrs p.W xs).filterMap wordOf = xs.map fun x => (BitVec.ofInt p.W x).toNat := by
    rw [encseqInstrs, List.filterMap_map, ← List.filterMap_eq_map]
    rfl
  rw [ownResponses, encOuts_runInstrs p e d l wellFormed_of_mem_encseqInstrs, List.drop_left, hwords, answers,
    List.map_map]
  refine List.map_congr_left fun x _ => ?_
  rw [Function.comp_apply, BitVec.ofNat_toNat, BitVec.setWidth_eq]

/-- Settles O27: the machine's own responses answer the integers of the list, and a word of an integer in range has that
integer for its operand. -/
theorem encseqAgreesWithEncodeSequence : Obligations.EncseqAgreesWithEncodeSequence := by
  rintro ⟨p, e, d, l⟩ xs hrange
  have hW := p.two_le_W
  have hoperand : ∀ x ∈ xs, (BitVec.ofInt p.W x).toInt = x := fun x hx =>
    BitVec.toInt_ofInt_eq_self (by omega) (hrange x hx).1 (hrange x hx).2
  rw [hwEncodeSequence, ownResponses_encseqInstrs]
  refine sequenceResult_map (fun x hx => ?_) fun x hx hpos => ?_
  · exact responseTo_status_eq_invalidInput_iff.trans (by rw [hoperand x hx])
  · have hvalid : validInput (BitVec.ofInt p.W x) = true :=
      decide_eq_true (by rw [encOperand, hoperand x hx]; exact hpos)
    rw [serialise_responseTo hW hvalid, hoperand x hx]

/-! ## Payloads and operations (R73, R83) -/

/-- Settles O1: every word of the port's width and every symbol decodes. -/
theorem payloadsSelectOperations : Obligations.PayloadsSelectOperations :=
  fun W => ⟨decode_encIn W, decode_decIn W _, decode_decIn W _, decode_decIn W _, decode_decIn W _⟩

theorem encode_decodeSym : ∀ y : BitVec 2, encode (decodeSym y) = ⟨.decIn, 2, y⟩ := by decide

section
variable {W : Nat} {op : Instr}

theorem decode_encode (hop : wellFormed W op = true) : decode W (encode op) = .ok op := by
  cases op with
  | enc w x =>
    obtain rfl : w = W := by simpa [wellFormed] using hop
    exact decode_encIn w x
  | dbit0 | dbit1 | dend | drsv => exact decode_decIn W _

theorem wellFormed_of_isSymbol (hop : isSymbol op = true) : wellFormed W op = true := by
  cases op with
  | enc => cases hop
  | dbit0 | dbit1 | dend | drsv => rfl

theorem encode_of_decode {p : Payload} (h : decode W p = .ok op) : encode op = p ∧ wellFormed W op = true := by
  obtain ⟨_ | _, w, bits⟩ := p
  · by_cases hw : w = W
    · subst hw
      cases (decode_encIn w bits).symm.trans h
      exact ⟨rfl, by simp [wellFormed]⟩
    · simp [decode, hw] at h
  · by_cases hw : w = 2
    · subst hw
      cases (decode_decIn W bits).symm.trans h
      exact ⟨encode_decodeSym bits, wellFormed_of_isSymbol (isSymbol_decodeSym bits)⟩
    · simp [decode, hw] at h

/-- Settles O2. -/
theorem decodeEncodeAgree : Obligations.DecodeEncodeAgree :=
  fun _ => ⟨fun _ => decode_encode, fun _ _ => encode_of_decode⟩

theorem wellFormed_of_decodeTableWordAt {nbits w : Nat} (h : decodeTableWordAt W nbits w = some op) :
    wellFormed W op = true := by
  rw [decodeTableWordAt] at h
  split at h
  next p _ =>
    cases hdecode : decode W p with
    | error => simp [hdecode, Except.toOption] at h
    | ok op' =>
      obtain rfl : op' = op := by simpa [hdecode, Except.toOption] using h
      exact (encode_of_decode hdecode).2
  · cases h
end

section
variable {p : Params} {e : Encoder p.W} {d : Decoder p.W} {l : List (Inputs p.W)}

/-- An edge that offers a symbol and takes the decoder's record alone runs the symbol (log entries 3 and 4). -/
theorem step_symbolEdge (y : BitVec 2) :
    step ⟨p, e, d, symbolEdge p.W false true y :: l⟩ = exec (decodeSym y) ⟨p, e, d, l⟩ := by
  have hin : inFire false true d.out.ov true = true := inFire_iff.mpr ⟨rfl, rfl, .inr rfl⟩
  have hout : outFire false e.out.ov false = false := by simp [outFire]
  exact step_of_decIn_alone (i := symbolEdge p.W false true y) rfl hin rfl hout

/-- The same of a word and the encoder. -/
theorem step_wordEdge (x : BitVec p.W) :
    step ⟨p, e, d, transferEdge p.W true false (.enc p.W x) :: l⟩ = exec (.enc p.W x) ⟨p, e, d, l⟩ := by
  have hin : inFire false true e.out.ov true = true := inFire_iff.mpr ⟨rfl, rfl, .inr rfl⟩
  have hout : outFire false d.out.ov false = false := by simp [outFire]
  have hdata : (transferEdge p.W true false (.enc p.W x)).encInData = x := BitVec.setWidth_eq ..
  rw [step_of_encIn_alone (i := transferEdge p.W true false (.enc p.W x)) rfl hin rfl hout, hdata]

theorem step_ownTransferEdge {op : Instr} (hop : wellFormed p.W op = true) :
    step ⟨p, e, d, ownTransferEdge p.W op :: l⟩ = exec op ⟨p, e, d, l⟩ := by
  cases op with
  | enc w x =>
    obtain rfl : w = p.W := by simpa [wellFormed] using hop
    exact step_wordEdge x
  | dbit0 | dbit1 | dend | drsv => exact step_symbolEdge _
end

/-- Settles O10: the edge placed transfers the operation alone. -/
theorem placedOperationRunsNext : Obligations.PlacedOperationRunsNext := by
  rintro ⟨p, e, d, l⟩ nbits w op hop
  have hplaced : State.withFetchWord ⟨p, e, d, l⟩ nbits w = ⟨p, e, d, ownTransferEdge p.W op :: l⟩ := by
    simp only [State.withFetchWord, hop]
  rw [hplaced]
  exact step_ownTransferEdge (wellFormed_of_decodeTableWordAt hop)

/-! ## The ranges of the records (R72, R74, R75) -/

/-- Settles O51: the codes by definition. -/
theorem codesAreNumbered : Obligations.CodesAreNumbered := ⟨rfl, rfl, rfl, rfl, rfl, rfl, rfl, rfl⟩

/-- Settles O29: an edge loads the response to a word, or keeps or empties the register. -/
theorem encoderResponsesStayWellFormed : Obligations.EncoderResponsesStayWellFormed := by
  rintro ⟨p, e, d, l⟩ t h hstep
  obtain rfl := step_eq_next_iff.mp hstep
  exact encoderInv_nextEncoder p.two_le_W h _

theorem Status.code_toNat_le (e : Status) : e.code.toNat ≤ 5 := by
  cases e <;> decide

/-- A frame's outcome is never INVALID_INPUT, which is an encoder's status (R75). -/
theorem Status.code_of_outcome {e : Status} (h : e ≠ .invalidInput) : e.code.toNat ∈ [0, 2, 3, 4, 5] := by
  cases e with
  | invalidInput => exact absurd rfl h
  | ok | prefixCutoff | offsetCutoff | valueOverflow | illegalSymbol => decide

section
variable {s : State} {i : Inputs s.params.W}

/-- R72 on the ports. -/
theorem encPorts_inRange (h : EncoderInv s.enc) (hov : (outputs s i).encOutValid = true) :
    ((outputs s i).encOutStatus.toNat = 0 ∧ 1 ≤ (outputs s i).encOutN.toNat ∧
      (outputs s i).encOutN.toNat ≤ NMAX s.params.W ∧
      (outputs s i).encOutLen.toNat = 2 * (outputs s i).encOutN.toNat - 1 ∧
      ∀ j, (outputs s i).encOutLen.toNat ≤ j → (outputs s i).encOutCode.getLsbD j = false) ∨
    ((outputs s i).encOutStatus.toNat = 1 ∧ (outputs s i).encOutN.toNat = 0 ∧
      (outputs s i).encOutLen.toNat = 0 ∧ (outputs s i).encOutCode.toNat = 0) := by
  rcases h.kind hov with hstatus | hstatus
  · obtain ⟨hpos, hmax, hlen, -, hcode⟩ := h.ok hov hstatus
    refine .inl ⟨congrArg (fun e => e.code.toNat) hstatus, hpos, hmax, hlen, fun j hj => ?_⟩
    have hj' : s.enc.out.held.len.toNat ≤ j := hj
    exact Nat.testBit_lt_two_pow (hcode.trans_le (Nat.pow_le_pow_right (by omega) (by omega)))
  · exact .inr ⟨congrArg (fun e => e.code.toNat) hstatus, h.invalid hov hstatus⟩

/-- R74 on the ports. -/
theorem decPorts_inRange (h : DecoderInv s.dec) (hov : (outputs s i).decOutValid = true) :
    ((outputs s i).decOutKind.toNat = 0 ∧ (outputs s i).decOutStatus.toNat = 0 ∧
      1 ≤ (outputs s i).decOutData.toNat ∧ (outputs s i).decOutData.toNat ≤ XMAX s.params.W) ∨
    ((outputs s i).decOutKind.toNat = 1 ∧ (outputs s i).decOutStatus.toNat ∈ [0, 2, 3, 4, 5] ∧
      (outputs s i).decOutData.toNat = 0) := by
  cases hkind : s.dec.out.held.kind with
  | value =>
    obtain ⟨hstatus, hdata⟩ := h.value hov hkind
    exact .inl ⟨congrArg (fun k => k.code.toNat) hkind, congrArg (fun e => e.code.toNat) hstatus, hdata⟩
  | done =>
    obtain ⟨hdata, hstatus⟩ := h.done hov hkind
    exact .inr ⟨congrArg (fun k => k.code.toNat) hkind, Status.code_of_outcome hstatus, hdata⟩
end

/-- Settles O52: the invariant of both units holds in every state of the run, and the ports show what it says. -/
theorem portsShowRecordsInRange : Obligations.PortsShowRecordsInRange := by
  intro p l k t i hrun
  have hinv : Inv t := invariantHoldsInEveryRun p l k t hrun
  exact ⟨encPorts_inRange hinv.enc, decPorts_inRange hinv.dec, Status.code_toNat_le _, Status.code_toNat_le _⟩

/-! ## Programs without stalls (R84, R85) -/

/-- Settles O18: the edges of `runEdges`, whose operations the units accept one by one. -/
theorem unstalledProgramTransfersEveryOperation : Obligations.UnstalledProgramTransfersEveryOperation := by
  rintro ⟨p, e, d, l⟩ ops hops
  refine ⟨trace_length .., ?_, ?_⟩
  · rw [runInstrs_eq, decIns_trace, List.take_length, symbolsAccepted_runEdges, filterMap_symbolOf]
  · rw [runInstrs_eq, encIns_trace, List.take_length]
    exact wordsAccepted_runEdges e hops

/-- The edge of an action of a program in which no stall is open. -/
def actionEdge (W : Nat) : HostAction → Inputs W
  | .transfer op => transferEdge W true true op
  | .reset => { quietEdge W true true with rst := true }
  | .idle | .stallE | .stallD | .takeE | .takeD => quietEdge W true true

/-- With nothing else waiting and both `out_ready` inputs at 1 an operation is accepted at its own edge. -/
theorem after_first_offer (op : Instr) (s : State) :
    ((HostState.start s.params.W).offer op).after ((HostState.start s.params.W).offer op).offering s =
      .start s.params.W := by
  have hready : ((HostState.start s.params.W).offer op).encReady = true ∧
      ((HostState.start s.params.W).offer op).decReady = true := by cases op <;> exact ⟨rfl, rfl⟩
  obtain ⟨hwords, hsymbols⟩ := offers_after_offering (s := s) hready.1 hready.2
  rw [HostState.start, HostState.mk.injEq]
  refine ⟨hready.1, hready.2, hwords.trans ?_, hsymbols.trans ?_⟩ <;> cases op <;> rfl

section
variable {p : Params} (e : Encoder p.W) (d : Decoder p.W) (l : List (Inputs p.W))

/-- Each action of such a program is one edge, after which nothing waits: what it offers is accepted at once. -/
theorem act_start {a : HostAction} (hE : a ≠ .stallE) (hD : a ≠ .stallD) :
    ∃ h : HostState p.W, (HostState.start p.W).act a = (h, some (actionEdge p.W a)) ∧
      h.after (actionEdge p.W a) ⟨p, e, d, l⟩ = .start p.W := by
  cases a with
  | stallE => exact absurd rfl hE
  | stallD => exact absurd rfl hD
  | transfer op =>
    have hedge : actionEdge p.W (.transfer op) = ((HostState.start p.W).offer op).offering := by cases op <;> rfl
    exact ⟨_, by rw [hedge]; rfl, by rw [hedge]; exact after_first_offer op ⟨p, e, d, l⟩⟩
  | idle | reset | takeE | takeD => exact ⟨.start p.W, rfl, rfl⟩

theorem edgesOf_start {as : List HostAction} (hE : .stallE ∉ as) (hD : .stallD ∉ as) :
    edgesOf (HostState.start p.W) ⟨p, e, d, l⟩ as = as.map (actionEdge p.W) ++ [quietEdge p.W true true] := by
  induction as generalizing e d with
  | nil => rfl
  | cons a as ih =>
    obtain ⟨haE, hasE⟩ := not_or.mp (List.mem_cons.not.mp hE)
    obtain ⟨haD, hasD⟩ := not_or.mp (List.mem_cons.not.mp hD)
    obtain ⟨h, hact, hafter⟩ := act_start e d l (Ne.symm haE) (Ne.symm haD)
    rw [edgesOf_of_act_some p e d l hact, hafter, ih _ _ hasE hasD, List.map_cons, List.cons_append]
end

theorem actionEdge_ready (W : Nat) (a : HostAction) :
    (actionEdge W a).encOutReady = true ∧ (actionEdge W a).decOutReady = true := by
  cases a with
  | transfer op => cases op <;> exact ⟨rfl, rfl⟩
  | idle | reset | stallE | stallD | takeE | takeD => exact ⟨rfl, rfl⟩

/-- Settles O55: `edgesOf_start` writes the edges out, and each of them has both `out_ready` inputs at 1. -/
theorem unstalledProgramIsOneEdgePerAction : Obligations.UnstalledProgramIsOneEdgePerAction := by
  rintro ⟨p, e, d, l⟩ as hE hD
  have hedges : programEdges ⟨p, e, d, l⟩ as = as.map (actionEdge p.W) ++ [quietEdge p.W true true] :=
    edgesOf_start e d l hE hD
  refine ⟨hedges, fun i hi => ?_⟩
  rw [hedges, List.mem_append, List.mem_map, List.mem_singleton] at hi
  obtain ⟨a, -, rfl⟩ | rfl := hi
  · exact actionEdge_ready p.W a
  · exact ⟨rfl, rfl⟩

end Sys2Proof.Machine
end

section
/-! PROOFS. The encoder at one word (40_encoder.md R101 to R109): the validity check, the leading-one detector and the
fields of the response; and what `encode_number` and `encode_sequence` give (R118, R122). -/

namespace Sys2Proof.Machine

open Sys2Proof.Config

/-! ## The length of the binary form (00_scope.md R11) -/

section
variable {x y i : Nat}

theorem testBit_bitlen_sub_one (h : 1 ≤ x) : x.testBit (bitlen x - 1) = true := by
  rw [bitlen_of_pos h, Nat.add_sub_cancel, Nat.testBit_log2 (Nat.ne_of_gt h)]

theorem testBit_of_bitlen_le (h : bitlen x ≤ i) : x.testBit i = false :=
  Nat.testBit_lt_two_pow (bitlen_le_iff.mp h)

theorem bitlen_mono (h : x ≤ y) : bitlen x ≤ bitlen y :=
  bitlen_le_iff.mpr (h.trans_lt (lt_two_pow_bitlen y))

/-- Only a power of two is longer than the integer before it. -/
theorem succ_eq_two_pow_of_bitlen_ne (h : bitlen x ≠ bitlen (x + 1)) : x + 1 = 2 ^ bitlen x := by
  have hlonger : ¬ bitlen (x + 1) ≤ bitlen x := by
    have hmono : bitlen x ≤ bitlen (x + 1) := bitlen_mono (Nat.le_succ x)
    omega
  have hge : ¬ x + 1 < 2 ^ bitlen x := bitlen_le_iff.not.mp hlonger
  have := lt_two_pow_bitlen x
  omega
end

/-! ## The response to a word -/

section
variable {W : Nat} {d : BitVec W}

theorem validInput_iff : validInput d = true ↔ 1 ≤ d.toInt := decide_eq_true_iff

theorem responseTo_of_pos (h : 1 ≤ d.toInt) : responseTo d = okResponse d := if_pos (validInput_iff.mpr h)

theorem responseTo_of_nonpos (h : d.toInt ≤ 0) : responseTo d = invalidResponse W :=
  if_neg fun hvalid => by
    have := validInput_iff.mp hvalid
    omega

/-- R101: a word is positive exactly when its sign bit is 0 and it is not 0. -/
theorem one_le_toInt_iff : 1 ≤ d.toInt ↔ d.getLsbD (W - 1) = false ∧ d ≠ 0 := by
  have hsign : d.getLsbD (W - 1) = false ↔ ¬ d.toInt < 0 := by
    rw [← BitVec.msb_eq_getLsbD_last, BitVec.msb_eq_toInt, decide_eq_false_iff_not]
  have hzero : d ≠ 0 ↔ d.toInt ≠ 0 := by
    rw [← BitVec.toInt_zero (w := W), BitVec.toInt_ne]
    rfl
  rw [hsign, hzero]
  omega

theorem toNat_toInt_of_pos (h : 1 ≤ d.toInt) : d.toInt.toNat = d.toNat :=
  (toNat_eq_toInt_toNat_of_valid (validInput_iff.mpr h)).symm

theorem one_le_toNat_of_pos (h : 1 ≤ d.toInt) : 1 ≤ d.toNat := (toNat_bounds_of_valid (validInput_iff.mpr h)).1

/-- R106, R108: the fields of the response to a positive word, whose code is the word itself. -/
theorem responseTo_fields_of_pos (hW : 2 ≤ W) (h : 1 ≤ d.toInt) :
    (responseTo d).status = .ok ∧ (responseTo d).n.toNat = bitlen d.toNat ∧
    (responseTo d).len.toNat = 2 * bitlen d.toNat - 1 ∧ (responseTo d).code.toNat = d.toNat := by
  have hpos := one_le_toNat_of_pos h
  obtain ⟨hn, hlen, hcode⟩ := okResponse_fields hW (validInput_iff.mpr h)
  have hvalue : 2 ^ (bitlen d.toNat - 1) + d.toNat % 2 ^ (bitlen d.toNat - 1) = d.toNat := by
    rw [← val_lowBits, ← offsetString_of_pos hpos, ← eq_two_pow_add_val_offsetString hpos]
  rw [responseTo_of_pos h]
  exact ⟨rfl, hn, hlen, hcode.trans hvalue⟩

theorem responseTo_code_getLsbD (hW : 2 ≤ W) (h : 1 ≤ d.toInt) (i : Nat) :
    (responseTo d).code.getLsbD i = d.getLsbD i := by
  obtain ⟨-, -, -, hcode⟩ := responseTo_fields_of_pos hW h
  exact congrArg (Nat.testBit · i) hcode

/-- R109: the length, by the integer that the word stands for. -/
theorem responseTo_len_of_pos (hW : 2 ≤ W) (h : 1 ≤ d.toInt) :
    (responseTo d).len.toNat = 2 * bitlen d.toInt.toNat - 1 := by
  obtain ⟨-, -, hlen, -⟩ := responseTo_fields_of_pos hW h
  rw [hlen, toNat_toInt_of_pos h]
end

/-- Settles O19: the check compares the signed integer with 1, and the response is chosen by the check. -/
theorem validInputIsPositive : Obligations.ValidInputIsPositive :=
  fun _ _ => ⟨validInput_iff, validInput_iff.trans one_le_toInt_iff,
    fun h => by rw [responseTo_of_pos (validInput_iff.mp h)]; rfl,
    fun h => if_neg (Bool.eq_false_iff.mp h)⟩

/-- Settles O20: the scan finds `bitlen` of the word, whose top bit is the last 1. -/
theorem widthDetectorIsBitlen : Obligations.WidthDetectorIsBitlen := by
  intro p d h
  have hvalid := validInput_iff.mpr h
  have hpos := one_le_toNat_of_pos h
  obtain ⟨hN, hmax⟩ := bitlen_bounds_of_valid hvalid
  rw [widthOf_of_valid hvalid, toNat_toInt_of_pos h]
  exact ⟨rfl, bitlen_of_pos hpos, hN, hmax, testBit_bitlen_sub_one hpos, fun _ => testBit_of_bitlen_le⟩

/-- Settles O21: `ENC` loads the response to its word, and the code field holds the bits of the word. -/
theorem encAnswersEveryWord : Obligations.EncAnswersEveryWord := by
  intro s d
  refine ⟨fun h => ?_, fun h => ⟨responseTo d, exec_enc_eq s d, ?_⟩⟩
  · rw [exec_enc_eq, responseTo_of_nonpos h]
    rfl
  · obtain ⟨hstatus, hn, hlen, -⟩ := responseTo_fields_of_pos s.params.two_le_W h
    rw [toNat_toInt_of_pos h]
    refine ⟨hstatus, hn, hlen, fun i => ?_⟩
    rw [responseTo_code_getLsbD s.params.two_le_W h]
    split
    · rfl
    next hi =>
      rw [← BitVec.testBit_toNat]
      by_cases htop : i = bitlen d.toNat - 1
      · rw [decide_eq_true htop, htop, testBit_bitlen_sub_one (one_le_toNat_of_pos h)]
      · rw [decide_eq_false htop, testBit_of_bitlen_le (by omega)]

/-- Settles O23: the code field and the word are the same number, which is below `2^(W-1)`. -/
theorem codeFieldIsTheInput : Obligations.CodeFieldIsTheInput := by
  intro p d h
  have hx := toNat_toInt_of_pos h
  obtain ⟨-, hlt⟩ := toNat_bounds_of_valid (validInput_iff.mpr h)
  obtain ⟨-, -, -, hcode⟩ := responseTo_fields_of_pos p.two_le_W h
  refine ⟨by omega, fun i hi => ?_, BitVec.eq_of_toNat_eq ?_⟩
  · rw [responseTo_code_getLsbD p.two_le_W h]
    exact testBit_of_bitlen_le (hx ▸ hi)
  · have hfits : d.toNat < 2 ^ CW p.W := hcode ▸ (responseTo d).code.isLt
    rw [hcode, BitVec.toNat_setWidth, BitVec.extractLsb'_toNat, Nat.shiftRight_zero, Nat.mod_eq_of_lt hlt,
      Nat.mod_eq_of_lt hfits]

/-- Settles O24: each part is the same fact about `bitlen`. -/
theorem codeLengthLaw : Obligations.CodeLengthLaw := by
  intro p d d' h h'
  have hlen := responseTo_len_of_pos p.two_le_W h
  have hlen' := responseTo_len_of_pos p.two_le_W h'
  refine ⟨?_, fun hle => ?_, fun hnext hne => ?_⟩
  · rw [hlen, bitlen_of_pos (by omega)]
    omega
  · have := bitlen_mono (Int.toNat_le_toNat hle)
    omega
  · have hsucc : d'.toInt.toNat = d.toInt.toNat + 1 := by omega
    have hlonger : bitlen d.toInt.toNat ≠ bitlen (d.toInt.toNat + 1) := fun heq =>
      hne (BitVec.eq_of_toNat_eq (by rw [hlen, hlen', hsucc, heq]))
    refine ⟨bitlen d.toInt.toNat, ?_⟩
    rw [← Int.toNat_of_nonneg (show 0 ≤ d'.toInt by omega), hsucc, succ_eq_two_pow_of_bitlen_ne hlonger]
    simp

/-! ## `encode_number` and `encode_sequence` (R117 to R122) -/

theorem encodeNumber_of_nonpos {x : Int} (h : x ≤ 0) : encodeNumber x = .error .invalidInput := if_pos h

theorem encodeNumber_of_pos {x : Int} (h : 1 ≤ x) :
    encodeNumber x = .ok (List.replicate (bitlen x.toNat - 1) false ++ bin x.toNat) := if_neg (by omega)

/-- Settles O25: by the sign of the word, with `serialise_responseTo` for a positive one. -/
theorem responseAgreesWithEncodeNumber : Obligations.ResponseAgreesWithEncodeNumber := by
  intro p d
  have hone : 1 ≤ 2 ^ (p.W - 1) := Nat.one_le_two_pow
  refine ⟨fun h => ⟨responseTo_status_eq_invalidInput_iff.mpr h, encodeNumber_of_nonpos h⟩, fun h => ⟨?_, ?_⟩, ?_,
    fun x hx => ⟨_, encodeNumber_of_pos (by omega)⟩⟩
  · rw [responseTo_of_pos h]
    rfl
  · rw [encodeNumber_of_pos h, serialise_responseTo p.two_le_W (validInput_iff.mpr h)]
  · have hlt : d.toInt < 2 ^ (p.W - 1) := BitVec.toInt_lt
    rw [Nat.cast_sub hone, Nat.cast_pow]
    exact Int.le_sub_one_of_lt hlt

theorem encodeSequence_of_pos {xs : List Int} (h : ∀ x ∈ xs, 1 ≤ x) :
    encodeSequence xs =
      .ok (xs.flatMap fun x => List.replicate (bitlen x.toNat - 1) false ++ bin x.toNat) := by
  refine if_neg fun hany => ?_
  obtain ⟨x, hx, hle⟩ := List.any_eq_true.mp hany
  have := h x hx
  have := of_decide_eq_true hle
  omega

/-- R122: the code of a list is the codes of its elements, of `2 * bitlen(x) - 1` bits each. -/
theorem exists_encodeSequence_length {xs : List Int} (h : ∀ x ∈ xs, 1 ≤ x) :
    ∃ b, encodeSequence xs = .ok b ∧ b.length = (xs.map fun x => 2 * bitlen x.toNat - 1).sum := by
  refine ⟨_, encodeSequence_of_pos h, ?_⟩
  rw [List.length_flatMap]
  refine congrArg List.sum (List.map_congr_left fun x _ => ?_)
  rw [List.length_append, List.length_replicate, bin_length]
  omega

/-- Settles O26: the example is the sum for its four integers. -/
theorem sequenceCodeLength : Obligations.SequenceCodeLength :=
  ⟨fun _ => exists_encodeSequence_length, exists_encodeSequence_length (xs := [1, 3, 5, 10]) (by decide)⟩

end Sys2Proof.Machine
end

section
/-! PROOFS. The decoder at one step (41_decoder.md R144, R154, R158), the frames of a bit string (R160 to R172): its
complete codes, what is left after them, and the reference `decode` (R165); and the two units apart (R171). -/

namespace Sys2Proof.Machine

open Sys2Proof.Config

/-! ## The decoder at one step -/

/-- Settles O32: `execDend` loads the record of `endStatus`. -/
theorem dendEffect : Obligations.DendEffect := by
  intro s
  refine ⟨endStatus s.dec, rfl, fun hfs hzero => ?_, fun hfs hpos => ?_, fun hfs => ?_, fun hfs => ?_⟩
  · simp [endStatus, hfs, hzero]
  · simp [endStatus, hfs, Nat.ne_of_gt hpos]
  · simp [endStatus, hfs]
  · simp [endStatus, hfs]

section
variable {W : Nat} {D : Decoder W}

/-- R54: what an accepted symbol loads is its row's record, and without one the register is left empty. -/
theorem heldRecords_afterSymbol (hW : 2 ≤ W) {sym : Instr} (hsym : isSymbol sym = true) :
    heldRecords (afterSymbol sym D).out = (rowRecord D sym).toList ∧
      (rowRecord D sym = none → (afterSymbol sym D).out = { D.out with ov := false }) := by
  have hout : (afterSymbol sym D).out = emitAtTransfer ((rowRecord D sym).map (recordOf W)) D.out :=
    afterSymbol_out hsym
  rw [hout]
  cases hrow : rowRecord D sym with
  | none => exact ⟨heldRecords_of_empty (by simp), fun _ => by simp⟩
  | some r => exact ⟨by simp [heldRecords, offered, decRecordOf_recordOf hW hrow], nofun⟩

/-- R148: in DRAIN every symbol but `DEND` only lets the record held be taken. -/
theorem afterSymbol_drain (hfs : D.fs = .drain) {sym : Instr} (hsym : isSymbol sym = true) (hne : sym ≠ .dend) :
    afterSymbol sym D = { D with out := { D.out with ov := false } } := by
  cases sym with
  | enc => cases hsym
  | dend => exact absurd rfl hne
  | dbit0 | dbit1 | drsv => simp only [afterSymbol, hfs]

theorem ov_outUpdate_none {α : Type} (fired : Bool) (r : OutReg α) :
    (outUpdate none fired r).ov = (r.ov && !fired) ∧ (outUpdate none fired r).held = r.held := by
  cases fired <;> simp
end

/-- Settles O34: `nextDecoder` under reset, at an accepted symbol, and at any other edge. -/
theorem decoderStepFollowsTable : Obligations.DecoderStepFollowsTable := by
  rintro ⟨p, e, d, l⟩ hinv
  rw [nextTransfers_decIn]
  generalize hi : nextInputs ⟨p, e, d, l⟩ = i
  have hstep := step_eq p e d l
  refine ⟨nextEncoder i e, nextDecoder i d, hi ▸ hstep, nextDecoder_of_rst, fun hrst => ?_⟩
  cases hsym : acceptedSymbol i d with
  | some sym =>
    obtain ⟨hheld, hnone⟩ := heldRecords_afterSymbol (D := d) p.two_le_W (isSymbol_of_acceptedSymbol hsym)
    rw [nextDecoder_of_symbol hrst hsym]
    exact ⟨fsmView_afterSymbol hinv.fsmInv sym, hheld, fun hrow => by rw [hnone hrow]⟩
  | none =>
    obtain ⟨hov, hkept⟩ := ov_outUpdate_none (outFire i.rst d.out.ov i.decOutReady) d.out
    rw [nextDecoder_of_no_symbol hrst hsym]
    refine ⟨rfl, hkept, hov.trans ?_⟩
    cases d.out.ov <;> simp [outFire, hrst]

/-- Settles O35: in DRAIN an edge takes the record held or leaves it, and loads none before `DEND`. -/
theorem drainIsLeftOnlyThroughEnd : Obligations.DrainIsLeftOnlyThroughEnd := by
  rintro ⟨p, e, d, l⟩ e' d' hfs hstep
  rw [nextTransfers_decIn]
  generalize hi : nextInputs ⟨p, e, d, l⟩ = i
  obtain rfl : d' = nextDecoder i d := by
    have heq := step_eq_next_iff.mp hstep
    rw [← hi]
    injection heq
  change d.fs = .drain at hfs
  cases hrst : i.rst with
  | true => exact .inl rfl
  | false =>
    refine .inr ?_
    cases hsym : acceptedSymbol i d with
    | some sym =>
      by_cases hend : sym = .dend
      · exact .inl (congrArg some hend)
      · rw [nextDecoder_of_symbol hrst hsym, afterSymbol_drain hfs (isSymbol_of_acceptedSymbol hsym) hend]
        exact .inr ⟨hfs, rfl, nofun⟩
    | none =>
      rw [nextDecoder_of_no_symbol hrst hsym]
      refine .inr ⟨hfs, rfl, fun hov => ?_⟩
      cases hfire : outFire i.rst d.out.ov i.decOutReady with
      | true => simp [hfire] at hov
      | false =>
        rw [hfire] at hov
        exact ⟨hov, rfl⟩

/-! ## What a bit string is at a code boundary (R78, R81) -/

theorem le_XMAX_iff {W x : Nat} (hW : 2 ≤ W) : x ≤ XMAX W ↔ bitlen x ≤ LMAX W + 1 := by
  have hL : LMAX W + 1 = W - 1 := by simp only [LMAX]; omega
  have hpos : 0 < 2 ^ (W - 1) := by positivity
  rw [hL, bitlen_le_iff, XMAX]
  omega

/-- The integers that the block encodes (R101), by their length. -/
theorem inRange_iff {p : Params} {vs : List Nat} :
    (∀ x ∈ vs, 1 ≤ x ∧ x ≤ XMAX p.W) ↔ ∀ x ∈ vs, 1 ≤ x ∧ bitlen x ≤ LMAX p.W + 1 := by
  simp only [le_XMAX_iff p.two_le_W]

theorem leadingZeros_zeros (L : Nat) : leadingZeros (List.replicate L false) = L := by
  induction L with
  | zero => rfl
  | succ L ih => rw [List.replicate_succ, leadingZeros_zero, ih]

theorem zeros_prefix_iff {n : Nat} {b : BitString} : List.replicate n false <+: b ↔ n ≤ leadingZeros b := by
  induction n generalizing b with
  | zero => simp
  | succ n ih =>
    cases b with
    | nil => simp
    | cons c b => cases c <;> simp [List.replicate_succ, ih]

/-- The code of `x` and what follows it, by the zeros, the terminator and the offset. -/
theorem gammaCode_append (x : Nat) (u : BitString) :
    gammaCode x ++ u = List.replicate (bitlen x - 1) false ++ true :: (offsetString x ++ u) := by
  simp [gammaCode]

theorem leadingZeros_gammaCode_append (x : Nat) (u : BitString) :
    leadingZeros (gammaCode x ++ u) = bitlen x - 1 := by
  rw [gammaCode_append, leadingZeros_zeros_one]

theorem length_offsetString {x : Nat} (hx : 1 ≤ x) : (offsetString x).length = bitlen x - 1 := by
  rw [offsetString_of_pos hx, lowBits_length]

/-- R81, R165: at a code boundary a string is zeros only, or has a terminator without all of its offset, or begins with
a code. -/
inductive BoundaryForm : BitString → Prop
  | zeros (L : Nat) : BoundaryForm (List.replicate L false)
  | shortOffset {L : Nat} {t : BitString} (ht : t.length < L) : BoundaryForm (List.replicate L false ++ [true] ++ t)
  | code {x : Nat} (hx : 1 ≤ x) (u : BitString) : BoundaryForm (gammaCode x ++ u)

theorem boundaryForm_zeros_one (L : Nat) (t : BitString) : BoundaryForm (List.replicate L false ++ [true] ++ t) := by
  by_cases ht : t.length < L
  · exact .shortOffset ht
  · have hlen : (t.take L).length = L := List.length_take_of_le (by omega)
    have hcode := gammaCode_two_pow_add_val (t.take L)
    rw [hlen] at hcode
    have hsplit : List.replicate L false ++ [true] ++ t = gammaCode (2 ^ L + val (t.take L)) ++ t.drop L := by
      rw [hcode, List.append_assoc _ (t.take L), List.take_append_drop]
    rw [hsplit]
    exact .code (Nat.one_le_two_pow.trans (Nat.le_add_right ..)) _

theorem exists_zeros (b : BitString) :
    (∃ L, b = List.replicate L false) ∨ ∃ L t, b = List.replicate L false ++ [true] ++ t := by
  induction b with
  | nil => exact .inl ⟨0, rfl⟩
  | cons c b ih =>
    cases c with
    | true => exact .inr ⟨0, b, rfl⟩
    | false =>
      obtain ⟨L, rfl⟩ | ⟨L, t, rfl⟩ := ih
      · exact .inl ⟨L + 1, rfl⟩
      · exact .inr ⟨L + 1, t, rfl⟩

theorem boundaryForm (b : BitString) : BoundaryForm b := by
  obtain ⟨L, rfl⟩ | ⟨L, t, rfl⟩ := exists_zeros b
  · exact .zeros L
  · exact boundaryForm_zeros_one L t

/-- R161, R172: what a frame leaves after its complete codes, of at most `lmax` zeros each, and the outcome that
tells it. -/
inductive Leftover (lmax : Nat) : BitString → Status → Prop
  | nothing : Leftover lmax [] .ok
  | zeros {L : Nat} (hpos : 1 ≤ L) (hL : L ≤ lmax) : Leftover lmax (List.replicate L false) .prefixCutoff
  | shortOffset {L : Nat} {t : BitString} (hL : L ≤ lmax) (ht : t.length < L) :
      Leftover lmax (List.replicate L false ++ [true] ++ t) .offsetCutoff
  | overlong {rest : BitString} (h : List.replicate (lmax + 1) false <+: rest) : Leftover lmax rest .valueOverflow

/-- R172: every bit string is the codes of integers in range and one of the four leftovers. -/
theorem exists_codes_leftover (lmax : Nat) (b : BitString) : ∃ (vs : List Nat) (rest : BitString) (outcome : Status),
    b = vs.flatMap gammaCode ++ rest ∧ (∀ x ∈ vs, 1 ≤ x ∧ bitlen x ≤ lmax + 1) ∧ Leftover lmax rest outcome := by
  by_cases hover : lmax + 1 ≤ leadingZeros b
  · exact ⟨[], b, _, rfl, by simp, .overlong (zeros_prefix_iff.mpr hover)⟩
  · cases boundaryForm b with
    | zeros L =>
      rw [leadingZeros_zeros] at hover
      rcases Nat.eq_zero_or_pos L with rfl | hpos
      · exact ⟨[], [], _, rfl, by simp, .nothing⟩
      · exact ⟨[], _, _, rfl, by simp, .zeros hpos (by omega)⟩
    | @shortOffset L t ht =>
      rw [List.append_assoc, List.singleton_append, leadingZeros_zeros_one] at hover
      exact ⟨[], _, _, rfl, by simp, .shortOffset (by omega) ht⟩
    | @code x hx u =>
      rw [leadingZeros_gammaCode_append] at hover
      have hshorter : u.length < (gammaCode x ++ u).length := by
        have := List.length_pos_iff.mpr (gammaCode_ne_nil x)
        rw [List.length_append]
        omega
      obtain ⟨vs, rest, outcome, rfl, hvs, hrest⟩ := exists_codes_leftover lmax u
      exact ⟨x :: vs, rest, outcome, by simp, by simpa using ⟨⟨hx, by omega⟩, hvs⟩, hrest⟩
termination_by b.length
decreasing_by exact hshorter

/-! ## The codes and the leftovers on the machine (R160, R161, R162) -/

theorem isSymbol_bitInstr (b : Bool) : isSymbol (bitInstr b) = true := by
  cases b <;> rfl

section
variable {lmax : Nat}

theorem fsmRun_append_of {v w v' : FsmView} {xs ys : List Instr} {rs rs' : List DecRecord}
    (hxs : fsmRun lmax v xs = (w, rs)) (hys : fsmRun lmax w ys = (v', rs')) :
    fsmRun lmax v (xs ++ ys) = (v', rs ++ rs') := by
  rw [fsmRun_append, hxs, hys]

/-- R142: a zero is counted below `lmax`. -/
theorem fsmRun_zero {n : Nat} (h : n ≠ lmax) :
    fsmRun lmax ⟨.scanPrefix, n, 0, .ok⟩ [bitInstr false] = (⟨.scanPrefix, n + 1, 0, .ok⟩, []) := by
  simp [fsmRun_cons, fsmTable, bitInstr, h]

/-- R147: the zero after `lmax` others fails the frame. -/
theorem fsmRun_zero_overlong :
    fsmRun lmax ⟨.scanPrefix, lmax, 0, .ok⟩ [bitInstr false] = (⟨.drain, 0, 0, .valueOverflow⟩, []) := by
  simp [fsmRun_cons, fsmTable, bitInstr]

/-- R142: a terminator after zeros starts the offset. -/
theorem fsmRun_terminator {n : Nat} (h : n ≠ 0) :
    fsmRun lmax ⟨.scanPrefix, n, 0, .ok⟩ [bitInstr true] = (⟨.readOffset, n, 1, .ok⟩, []) := by
  simp [fsmRun_cons, fsmTable, bitInstr, h]

/-- R145: an offset bit with more to come. -/
theorem fsmRun_offsetBit {c a : Nat} (b : Bool) (h : c ≠ 1) :
    fsmRun lmax ⟨.readOffset, c, a, .ok⟩ [bitInstr b] = (⟨.readOffset, c - 1, 2 * a + b.toNat, .ok⟩, []) := by
  cases b <;> simp [fsmRun_cons, fsmTable, tableOffsetBit, bitInstr, h]

/-- R143: the last offset bit. -/
theorem fsmRun_lastOffsetBit (a : Nat) (b : Bool) :
    fsmRun lmax ⟨.readOffset, 1, a, .ok⟩ [bitInstr b] = (.atBoundary, [.value (2 * a + b.toNat)]) := by
  cases b <;> rfl

theorem fsmRun_zeros {L : Nat} (h : L ≤ lmax) :
    fsmRun lmax .atBoundary ((List.replicate L false).map bitInstr) = (⟨.scanPrefix, L, 0, .ok⟩, []) := by
  induction L with
  | zero => rfl
  | succ L ih =>
    rw [List.replicate_succ', List.map_append]
    exact fsmRun_append_of (ih (by omega)) (fsmRun_zero (by omega))

theorem fsmRun_zeros_one {L : Nat} (hpos : 1 ≤ L) (hL : L ≤ lmax) :
    fsmRun lmax .atBoundary ((List.replicate L false ++ [true]).map bitInstr) = (⟨.readOffset, L, 1, .ok⟩, []) := by
  rw [List.map_append]
  exact fsmRun_append_of (fsmRun_zeros hL) (fsmRun_terminator (Nat.ne_of_gt hpos))

/-- R145: the accumulator takes the offset bits in, most significant first. -/
theorem fsmRun_offset {c : Nat} {t : BitString} (h : t.length < c) :
    fsmRun lmax ⟨.readOffset, c, 1, .ok⟩ (t.map bitInstr) =
      (⟨.readOffset, c - t.length, 2 ^ t.length + val t, .ok⟩, []) := by
  induction t using List.reverseRecOn with
  | nil => rfl
  | append_singleton t b ih =>
    rw [List.length_append, List.length_singleton] at h
    have hbit := fsmRun_offsetBit (lmax := lmax) (a := 2 ^ t.length + val t) b (show c - t.length ≠ 1 by omega)
    have hcnt : c - t.length - 1 = c - (t ++ [b]).length := by
      rw [List.length_append, List.length_singleton]
      omega
    have hacc : 2 * (2 ^ t.length + val t) + b.toNat = 2 ^ (t ++ [b]).length + val (t ++ [b]) := by
      rw [val_concat, List.length_append, List.length_singleton]
      ring
    rw [hcnt, hacc] at hbit
    rw [List.map_append]
    exact fsmRun_append_of (ih (by omega)) hbit

/-- R143, R160: a complete code gives the record of its value and ends at a boundary. -/
theorem fsmRun_completeCode {t : BitString} (ht : t.length ≤ lmax) :
    fsmRun lmax .atBoundary ((List.replicate t.length false ++ [true] ++ t).map bitInstr) =
      (.atBoundary, [.value (2 ^ t.length + val t)]) := by
  induction t using List.reverseRecOn with
  | nil => rfl
  | append_singleton t b =>
    rw [List.length_append, List.length_singleton] at ht ⊢
    have hread := fsmRun_offset (lmax := lmax) (Nat.lt_succ_self t.length)
    rw [Nat.succ_eq_add_one, Nat.add_sub_cancel_left] at hread
    have hlast := fsmRun_lastOffsetBit (lmax := lmax) (2 ^ t.length + val t) b
    have hvalue : 2 * (2 ^ t.length + val t) + b.toNat = 2 ^ (t.length + 1) + val (t ++ [b]) := by
      rw [val_concat]
      ring
    rw [hvalue] at hlast
    rw [List.map_append, List.map_append (l₁ := t)]
    exact fsmRun_append_of (fsmRun_zeros_one (Nat.succ_pos _) ht) (fsmRun_append_of hread hlast)

theorem fsmRun_gammaCode {x : Nat} (hx : 1 ≤ x) (hmax : bitlen x ≤ lmax + 1) :
    fsmRun lmax .atBoundary ((gammaCode x).map bitInstr) = (.atBoundary, [.value x]) := by
  have hlen := length_offsetString hx
  have hcode := fsmRun_completeCode (lmax := lmax) (t := offsetString x) (by omega)
  rwa [hlen, ← eq_two_pow_add_val_offsetString hx] at hcode

theorem fsmRun_codes {vs : List Nat} (hvs : ∀ x ∈ vs, 1 ≤ x ∧ bitlen x ≤ lmax + 1) :
    fsmRun lmax .atBoundary ((vs.flatMap gammaCode).map bitInstr) = (.atBoundary, vs.map .value) := by
  induction vs with
  | nil => rfl
  | cons x vs ih =>
    obtain ⟨hx, hmax⟩ := hvs x (by simp)
    rw [List.flatMap_cons, List.map_append]
    exact fsmRun_append_of (fsmRun_gammaCode hx hmax) (ih fun y hy => hvs y (by simp [hy]))

/-- R148: a failed frame stays failed over its bits. -/
theorem fsmRun_drain (err : Status) (b : BitString) :
    fsmRun lmax ⟨.drain, 0, 0, err⟩ (b.map bitInstr) = (⟨.drain, 0, 0, err⟩, []) := by
  induction b with
  | nil => rfl
  | cons c b ih =>
    rw [List.map_cons, fsmRun_cons]
    cases c <;> simp [bitInstr, fsmTable, ih]

theorem fsmRun_overlong {b : BitString} (h : List.replicate (lmax + 1) false <+: b) :
    fsmRun lmax .atBoundary (b.map bitInstr) = (⟨.drain, 0, 0, .valueOverflow⟩, []) := by
  obtain ⟨u, rfl⟩ := h
  rw [List.replicate_succ', List.map_append, List.map_append]
  exact fsmRun_append_of (fsmRun_append_of (fsmRun_zeros le_rfl) fsmRun_zero_overlong) (fsmRun_drain _ u)

/-- R154, R161: the END of a frame tells what its codes have left. -/
theorem fsmRun_leftover {rest : BitString} {outcome : Status} (h : Leftover lmax rest outcome) :
    fsmRun lmax .atBoundary (decodeInstrs rest) = (.atBoundary, [.done outcome]) := by
  cases h with
  | nothing => rfl
  | @zeros L hpos hL =>
    have hend : fsmRun lmax ⟨.scanPrefix, L, 0, .ok⟩ [.dend] = (.atBoundary, [.done .prefixCutoff]) := by
      simp [fsmRun_cons, fsmTable, FsmView.atBoundary, Nat.ne_of_gt hpos]
    exact fsmRun_append_of (fsmRun_zeros hL) hend
  | @shortOffset L t hL ht =>
    have hend (v : FsmView) (hv : v.fs = .readOffset) :
        fsmRun lmax v [.dend] = (.atBoundary, [.done .offsetCutoff]) := by
      simp [fsmRun_cons, fsmTable, FsmView.atBoundary, hv]
    rw [decodeInstrs, List.map_append]
    exact fsmRun_append_of (fsmRun_append_of (fsmRun_zeros_one (by omega) hL) (fsmRun_offset ht)) (hend _ rfl)
  | overlong h => exact fsmRun_append_of (fsmRun_overlong h) rfl

/-- R172: the records of a frame are the values of its codes, and what is left. -/
theorem fsmRun_frame {vs : List Nat} {rest : BitString} {outcome : Status}
    (hvs : ∀ x ∈ vs, 1 ≤ x ∧ bitlen x ≤ lmax + 1) (hrest : Leftover lmax rest outcome) :
    fsmRun lmax .atBoundary (decodeInstrs (vs.flatMap gammaCode ++ rest)) =
      (.atBoundary, vs.map .value ++ [.done outcome]) := by
  have hinstrs : decodeInstrs (vs.flatMap gammaCode ++ rest) =
      (vs.flatMap gammaCode).map bitInstr ++ decodeInstrs rest := by
    simp [decodeInstrs]
  rw [hinstrs]
  exact fsmRun_append_of (fsmRun_codes hvs) (fsmRun_leftover hrest)
end

/-! ## Frames on the machine -/

/-- R166: what the host makes of a frame with the values `vs` and the outcome `outcome`. -/
def resultOf (vs : List Nat) (outcome : Status) : Except Status (List Nat) :=
  if outcome = .ok then .ok vs else .error outcome

@[simp] theorem resultOf_ok (vs : List Nat) : resultOf vs .ok = .ok vs := rfl

theorem resultOf_of_ne_ok {outcome : Status} (h : outcome ≠ .ok) (vs : List Nat) :
    resultOf vs outcome = .error outcome := if_neg h

theorem resultOf_eq_ok_iff {vs xs : List Nat} {outcome : Status} :
    resultOf vs outcome = .ok xs ↔ outcome = .ok ∧ vs = xs := by
  by_cases h : outcome = .ok
  · simp [h]
  · simp [resultOf_of_ne_ok h, h]

theorem map_append_resultOf (vs ws : List Nat) (outcome : Status) :
    (resultOf ws outcome).map (vs ++ ·) = resultOf (vs ++ ws) outcome := by
  by_cases h : outcome = .ok
  · rw [h]
    rfl
  · rw [resultOf_of_ne_ok h, resultOf_of_ne_ok h]
    rfl

theorem frameResult_values (vs : List Nat) (outcome : Status) :
    frameResult (vs.map .value ++ [.done outcome]) = some (resultOf vs outcome) := by
  induction vs with
  | nil => rfl
  | cons x vs ih =>
    rw [List.map_cons, List.cons_append, frameResult, ih]
    exact congrArg some (map_append_resultOf [x] vs outcome)

theorem isSymbol_of_mem_decodeInstrs {b : BitString} {sym : Instr} (h : sym ∈ decodeInstrs b) :
    isSymbol sym = true := by
  simp only [decodeInstrs, List.mem_append, List.mem_map, List.mem_singleton] at h
  obtain ⟨c, -, rfl⟩ | rfl := h
  · exact isSymbol_bitInstr c
  · rfl

section
variable {s : State} {vs : List Nat} {rest : BitString} {outcome : Status}

/-- R149, R166: from a frame boundary the records are those of the table run, whatever the units still hold. -/
theorem ownRecords_of_boundary (hs : atFrameBoundary s) {syms : List Instr}
    (hsyms : ∀ sym ∈ syms, isSymbol sym = true) :
    ownRecords s syms = (fsmRun (LMAX s.params.W) .atBoundary syms).2 := by
  obtain ⟨p, e, d, l⟩ := s
  have hview : fsmView d = .atBoundary := hs
  rw [ownRecords_eq_fsmRun p e d l (hview ▸ fsmInv_atBoundary) hsyms, hview]

theorem ownRecords_frame (hs : atFrameBoundary s) (hvs : ∀ x ∈ vs, 1 ≤ x ∧ x ≤ XMAX s.params.W)
    (hrest : Leftover (LMAX s.params.W) rest outcome) :
    ownRecords s (decodeInstrs (vs.flatMap gammaCode ++ rest)) = vs.map .value ++ [.done outcome] := by
  rw [ownRecords_of_boundary hs fun _ => isSymbol_of_mem_decodeInstrs, fsmRun_frame (inRange_iff.mp hvs) hrest]

theorem hwDecode_frame (hs : atFrameBoundary s) (hvs : ∀ x ∈ vs, 1 ≤ x ∧ x ≤ XMAX s.params.W)
    (hrest : Leftover (LMAX s.params.W) rest outcome) :
    hwDecode s (vs.flatMap gammaCode ++ rest) = some (resultOf vs outcome) := by
  rw [hwDecode, ownRecords_frame hs hvs hrest, frameResult_values]
end

/-- `exists_codes_leftover` at the width of the block. -/
theorem exists_frame (p : Params) (b : BitString) : ∃ (vs : List Nat) (rest : BitString) (outcome : Status),
    b = vs.flatMap gammaCode ++ rest ∧ (∀ x ∈ vs, 1 ≤ x ∧ x ≤ XMAX p.W) ∧ Leftover (LMAX p.W) rest outcome := by
  obtain ⟨vs, rest, outcome, hb, hvs, hrest⟩ := exists_codes_leftover (LMAX p.W) b
  exact ⟨vs, rest, outcome, hb, inRange_iff.mpr hvs, hrest⟩

/-- Settles O40: one code on the table, by `fsmRun_completeCode`. -/
theorem completeCodeGivesItsValue : Obligations.CompleteCodeGivesItsValue := by
  intro s t hs ht
  refine ⟨?_, bitlen_two_pow_add (val_lt_two_pow t)⟩
  rw [ownRecords_of_boundary hs, fsmRun_completeCode ht]
  intro sym hsym
  obtain ⟨b, -, rfl⟩ := List.mem_map.mp hsym
  exact isSymbol_bitInstr b

/-- R149: `DEND` leaves every state of the table for a frame boundary. -/
theorem fsmRun_dend (lmax : Nat) (v : FsmView) (syms : List Instr) :
    (fsmRun lmax v (syms ++ [.dend])).1 = .atBoundary := by
  rw [fsmRun_concat]
  generalize (fsmRun lmax v syms).1 = w
  obtain ⟨fs, cnt, acc, err⟩ := w
  cases fs <;> rfl

/-- Settles O45: from a frame boundary the records are a function of the symbols, and a `DEND` ends
at one. -/
theorem framesAreIndependent : Obligations.FramesAreIndependent := by
  intro p e e' d d' l l' hs hs'
  have hend {syms : List Instr} (hsyms : ∀ i ∈ syms, isSymbol i = true) :
      ∀ i ∈ syms ++ [.dend], isSymbol i = true := by
    simpa [or_imp, forall_and, isSymbol] using hsyms
  have hsame {syms : List Instr} (hsyms : ∀ i ∈ syms, isSymbol i = true) :
      ownRecords ⟨p, e, d, l⟩ syms = ownRecords ⟨p, e', d', l'⟩ syms := by
    rw [ownRecords_of_boundary hs hsyms, ownRecords_of_boundary hs' hsyms]
  refine ⟨fun b => congrArg frameResult (hsame fun _ => isSymbol_of_mem_decodeInstrs), fun frame hframe => ?_⟩
  have hframe' := hend fun i hi => (hframe i hi).1
  refine ⟨hsame hframe', fun earlier hearlier => ?_⟩
  have hearlier' := hend hearlier
  rw [← hsame hframe', List.append_assoc, ownRecords_of_boundary hs fun i hi => (List.mem_append.mp hi).elim
      (hearlier' i) (hframe' i), ownRecords_of_boundary hs hearlier', ownRecords_of_boundary hs hframe',
    fsmRun_append, fsmRun_dend _ _ earlier]

/-- R172: no code begins what is left, unless that begins with too many zeros. -/
theorem Leftover.not_gammaCode_prefix {lmax : Nat} {rest : BitString} {outcome : Status}
    (h : Leftover lmax rest outcome) (hne : outcome ≠ .valueOverflow) {y : Nat} (hy : 1 ≤ y) :
    ¬ gammaCode y <+: rest := by
  rintro ⟨u, hu⟩
  cases h with
  | nothing => simp [gammaCode_ne_nil] at hu
  | zeros hpos hL =>
    have hone : true ∈ gammaCode y ++ u := by simp [gammaCode]
    rw [hu] at hone
    simp at hone
  | @shortOffset L t hL ht =>
    rw [gammaCode_append, List.append_assoc, List.singleton_append] at hu
    obtain ⟨hzeros, hoffset⟩ := zeros_one_inj hu
    have hlen := congrArg List.length hoffset
    rw [List.length_append, length_offsetString hy] at hlen
    omega
  | overlong => exact hne rfl

/-- R80, R172: the codes at the start of a string are those of its decomposition. -/
theorem codes_prefix_of_leftover {lmax : Nat} {rest : BitString} {outcome : Status} (hrest : Leftover lmax rest outcome)
    (hne : outcome ≠ .valueOverflow) {vs ys : List Nat} (hvs : ∀ x ∈ vs, 1 ≤ x) (hys : ∀ y ∈ ys, 1 ≤ y)
    (h : ys.flatMap gammaCode <+: vs.flatMap gammaCode ++ rest) : ys <+: vs := by
  induction ys generalizing vs with
  | nil => exact List.nil_prefix
  | cons y ys ih =>
    have hy := hys y (by simp)
    cases vs with
    | nil => exact absurd ((List.prefix_append ..).trans h) (hrest.not_gammaCode_prefix hne hy)
    | cons v vs =>
      obtain ⟨u, hu⟩ := h
      rw [List.flatMap_cons, List.flatMap_cons, List.append_assoc, List.append_assoc] at hu
      obtain ⟨rfl, htail⟩ := gammaCode_append_inj hy (hvs v (by simp)) hu
      exact List.cons_prefix_cons.mpr
        ⟨rfl, ih (fun x hx => hvs x (by simp [hx])) (fun x hx => hys x (by simp [hx])) ⟨u, htail⟩⟩

/-- Settles O46: the decomposition of `exists_frame` is the frame's, and the only one. -/
theorem frameIsItsCompleteCodes : Obligations.FrameIsItsCompleteCodes := by
  intro s b hs
  obtain ⟨vs, rest, outcome, rfl, hvs, hrest⟩ := exists_frame s.params b
  refine ⟨vs, outcome, rest, ownRecords_frame hs hvs hrest, rfl, hvs, ?_, fun hne ys hys =>
    codes_prefix_of_leftover hrest hne (fun x hx => (hvs x hx).1) hys⟩
  cases hrest with
  | nothing => exact .inl ⟨rfl, rfl⟩
  | zeros hpos hL => exact .inr (.inl ⟨rfl, _, hpos, hL, rfl⟩)
  | shortOffset hL ht => exact .inr (.inr (.inl ⟨rfl, _, _, hL, ht, rfl⟩))
  | overlong h => exact .inr (.inr (.inr ⟨rfl, h⟩))

/-- Settles O47: the outcome OK leaves nothing after the codes. -/
theorem okFrameIsItsCodes : Obligations.OkFrameIsItsCodes := by
  intro s b xs hs hok
  obtain ⟨vs, rest, outcome, rfl, hvs, hrest⟩ := exists_frame s.params b
  rw [hwDecode_frame hs hvs hrest, Option.some.injEq, resultOf_eq_ok_iff] at hok
  obtain ⟨rfl, rfl⟩ := hok
  cases hrest with
  | nothing => exact ⟨List.append_nil _, hvs⟩

/-- Settles O48: both kinds of trailing bits are leftovers. -/
theorem trailingBitsFailTheFrame : Obligations.TrailingBitsFailTheFrame := by
  intro s xs L t hs hxs hL
  refine ⟨fun hpos => hwDecode_frame hs hxs (.zeros hpos hL), fun ht => ?_⟩
  have hframe := hwDecode_frame hs hxs (.shortOffset hL ht)
  rwa [← List.append_assoc, ← List.append_assoc] at hframe

/-- R117, R120: the code of a list of positive integers is their gamma codes. -/
theorem encodeSequence_cast {xs : List Nat} (h : ∀ x ∈ xs, 1 ≤ x) :
    encodeSequence (xs.map fun (x : Nat) => (x : Int)) = .ok (xs.flatMap gammaCode) := by
  rw [encodeSequence_of_pos (by simpa using h), List.flatMap_map]
  refine congrArg Except.ok (List.flatMap_congr fun x hx => ?_)
  obtain ⟨-, -, hcode, -⟩ := gammaCodeIsZerosThenBinary x (h x hx)
  exact hcode.symm

/-- Settles O44: the machine encodes the list as its gamma codes, which are a frame with nothing left. -/
theorem roundTrip : Obligations.RoundTrip := by
  intro s xs hs hxs
  refine ⟨xs.flatMap gammaCode, ?_, ?_⟩
  · have hfits : ∀ x ∈ xs.map fun (x : Nat) => (x : Int),
        -(2 : Int) ^ (s.params.W - 1) ≤ x ∧ x < (2 : Int) ^ (s.params.W - 1) := by
      intro y hy
      obtain ⟨x, hx, rfl⟩ := List.mem_map.mp hy
      have hpos : 0 < 2 ^ (s.params.W - 1) := by positivity
      have hlt : x < 2 ^ (s.params.W - 1) := (hxs x hx).2.trans_lt (Nat.sub_lt hpos Nat.one_pos)
      have hcast : (x : Int) < (2 : Int) ^ (s.params.W - 1) := mod_cast hlt
      omega
    rw [encseqAgreesWithEncodeSequence s _ hfits, encodeSequence_cast fun x hx => (hxs x hx).1]
  · have hframe := hwDecode_frame hs hxs .nothing
    rwa [List.append_nil] at hframe

/-! ## The reference `decode` (R165, R167) -/

section
variable (turns : Nat)

@[simp] theorem decodeLoop_nil : decodeLoop turns [] = .ok [] := by cases turns <;> rfl

@[simp] theorem boundariesLoop_nil : boundariesLoop turns [] = [[]] := by cases turns <;> rfl

/-- A turn that finds no terminator. -/
theorem decodeLoop_zeros {L : Nat} (hpos : 1 ≤ L) :
    decodeLoop (turns + 1) (List.replicate L false) = .error .prefixCutoff ∧
      boundariesLoop (turns + 1) (List.replicate L false) = [List.replicate L false] := by
  obtain ⟨L, rfl⟩ := Nat.exists_eq_add_of_le' hpos
  have hdrop : (List.replicate (L + 1) false).drop (leadingZeros (List.replicate (L + 1) false)) = [] := by
    simp [leadingZeros_zeros]
  rw [List.replicate_succ] at hdrop ⊢
  simp only [decodeLoop, boundariesLoop, hdrop, and_self]

/-- A turn that finds the terminator after `L` zeros. -/
theorem decodeLoop_zeros_one (L : Nat) (t : BitString) :
    decodeLoop (turns + 1) (List.replicate L false ++ true :: t) =
      (if t.length < L then .error .offsetCutoff
        else (decodeLoop turns (t.drop L)).map ((2 ^ L + val (t.take L)) :: ·)) ∧
    boundariesLoop (turns + 1) (List.replicate L false ++ true :: t) =
      (List.replicate L false ++ true :: t) :: if t.length < L then [] else boundariesLoop turns (t.drop L) := by
  have hzeros := leadingZeros_zeros_one L t
  have hdrop : (List.replicate L false ++ true :: t).drop L = true :: t := List.drop_left' (by simp)
  generalize hb : List.replicate L false ++ true :: t = b at hzeros hdrop
  cases b with
  | nil => simp at hb
  | cons c b => simp only [decodeLoop, boundariesLoop, hzeros, hdrop, and_self]

theorem decodeLoop_shortOffset {L : Nat} {t : BitString} (ht : t.length < L) :
    decodeLoop (turns + 1) (List.replicate L false ++ [true] ++ t) = .error .offsetCutoff ∧
      boundariesLoop (turns + 1) (List.replicate L false ++ [true] ++ t) =
        [List.replicate L false ++ [true] ++ t] := by
  have hturn := decodeLoop_zeros_one turns L t
  rw [if_pos ht, if_pos ht] at hturn
  rwa [List.append_assoc, List.singleton_append]

theorem decodeLoop_gammaCode {x : Nat} (hx : 1 ≤ x) (u : BitString) :
    decodeLoop (turns + 1) (gammaCode x ++ u) = (decodeLoop turns u).map (x :: ·) ∧
      boundariesLoop (turns + 1) (gammaCode x ++ u) = (gammaCode x ++ u) :: boundariesLoop turns u := by
  have hlen := length_offsetString hx
  have hturn := decodeLoop_zeros_one turns (bitlen x - 1) (offsetString x ++ u)
  have hlong : ¬ (offsetString x ++ u).length < bitlen x - 1 := by
    rw [List.length_append]
    omega
  rw [if_neg hlong, if_neg hlong, List.drop_left' hlen, List.take_left' hlen,
    ← eq_two_pow_add_val_offsetString hx] at hturn
  rwa [gammaCode_append]
end

/-- The turns of a list of codes come before those of what follows. -/
theorem decodeLoop_codes (turns : Nat) {vs : List Nat} (hvs : ∀ x ∈ vs, 1 ≤ x) (rest : BitString) :
    decodeLoop (turns + vs.length) (vs.flatMap gammaCode ++ rest) = (decodeLoop turns rest).map (vs ++ ·) := by
  induction vs with
  | nil => cases h : decodeLoop turns rest <;> simp [h, Except.map]
  | cons x vs ih =>
    rw [List.flatMap_cons, List.append_assoc, List.length_cons, ← Nat.add_assoc,
      (decodeLoop_gammaCode _ (hvs x (by simp)) _).1, ih fun y hy => hvs y (by simp [hy])]
    cases decodeLoop turns rest <;> rfl

/-- A boundary of the loop with more than `lmax` zeros after it. -/
def HasOverlong (lmax turns : Nat) (b : BitString) : Prop := ∃ r ∈ boundariesLoop turns b, lmax < leadingZeros r

/-- No code in range has more than `lmax` zeros. -/
theorem hasOverlong_codes_iff {lmax : Nat} (turns : Nat) {vs : List Nat}
    (hvs : ∀ x ∈ vs, 1 ≤ x ∧ bitlen x ≤ lmax + 1) (rest : BitString) :
    HasOverlong lmax (turns + vs.length) (vs.flatMap gammaCode ++ rest) ↔ HasOverlong lmax turns rest := by
  induction vs with
  | nil => rfl
  | cons x vs ih =>
    obtain ⟨hx, hmax⟩ := hvs x (by simp)
    have hshort : ¬ lmax < leadingZeros (gammaCode x ++ (vs.flatMap gammaCode ++ rest)) := by
      rw [leadingZeros_gammaCode_append]
      omega
    rw [← ih fun y hy => hvs y (by simp [hy]), List.flatMap_cons, List.append_assoc, List.length_cons, ← Nat.add_assoc,
      HasOverlong, (decodeLoop_gammaCode _ hx _).2]
    simp only [List.mem_cons, exists_eq_or_imp, hshort, false_or]
    rfl

theorem self_mem_boundariesLoop {turns : Nat} {b : BitString} (h : b.length ≤ turns) : b ∈ boundariesLoop turns b := by
  cases b with
  | nil => simp
  | cons c b =>
    obtain ⟨turns, rfl⟩ := Nat.exists_eq_add_of_le' (Nat.one_le_of_lt h)
    simp [boundariesLoop]

/-- R165: the errors of `decode`. -/
theorem decodeLoop_eq_error {turns : Nat} {b : BitString} {err : Status} (h : decodeLoop turns b = .error err) :
    err = .prefixCutoff ∨ err = .offsetCutoff := by
  induction turns generalizing b with
  | zero => cases b <;> cases h
  | succ turns ih =>
    cases boundaryForm b with
    | zeros L =>
      cases L with
      | zero => cases h
      | succ L =>
        rw [(decodeLoop_zeros turns (Nat.succ_pos L)).1] at h
        cases h
        exact .inl rfl
    | shortOffset ht =>
      rw [(decodeLoop_shortOffset turns ht).1] at h
      cases h
      exact .inr rfl
    | code hx u =>
      rw [(decodeLoop_gammaCode turns hx u).1] at h
      cases hu : decodeLoop turns u with
      | ok xs =>
        rw [hu] at h
        cases h
      | error err' =>
        rw [hu] at h
        cases h
        exact ih hu

section
variable {lmax turns : Nat} {rest : BitString} {outcome : Status}

/-- R167: where no run of zeros is too long the loop gives the outcome of what is left. -/
theorem Leftover.decodeLoop_eq (h : Leftover lmax rest outcome) (hne : outcome ≠ .valueOverflow)
    (hturns : rest.length ≤ turns) : decodeLoop turns rest = resultOf [] outcome ∧ ¬ HasOverlong lmax turns rest := by
  cases h with
  | nothing => exact ⟨by simp, by simp [HasOverlong]⟩
  | @zeros L hpos hL =>
    obtain ⟨turns, rfl⟩ : ∃ k, turns = k + 1 := Nat.exists_eq_add_of_le' (by simp at hturns; omega)
    obtain ⟨hloop, hbounds⟩ := decodeLoop_zeros turns hpos
    exact ⟨hloop, by rw [HasOverlong, hbounds]; simpa [leadingZeros_zeros] using hL⟩
  | @shortOffset L t hL ht =>
    obtain ⟨turns, rfl⟩ : ∃ k, turns = k + 1 := Nat.exists_eq_add_of_le' (by simp at hturns; omega)
    obtain ⟨hloop, hbounds⟩ := decodeLoop_shortOffset turns ht
    exact ⟨hloop, by rw [HasOverlong, hbounds]; simpa [leadingZeros_zeros_one] using hL⟩
  | overlong => exact absurd rfl hne

theorem hasOverlong_of_zeros_prefix (h : List.replicate (lmax + 1) false <+: rest) (hturns : rest.length ≤ turns) :
    HasOverlong lmax turns rest := ⟨rest, self_mem_boundariesLoop hturns, zeros_prefix_iff.mp h⟩

theorem Leftover.hasOverlong_iff (h : Leftover lmax rest outcome) (hturns : rest.length ≤ turns) :
    HasOverlong lmax turns rest ↔ outcome = .valueOverflow := by
  by_cases hne : outcome = .valueOverflow
  · subst hne
    cases h with
    | overlong hzeros => exact iff_of_true (hasOverlong_of_zeros_prefix hzeros hturns) rfl
  · exact iff_of_false (h.decodeLoop_eq hne hturns).2 hne

/-- R167: `decode`, which has no bound, reads on past too many zeros: it meets a cutoff, or gives an integer that is too
large. -/
theorem decodeLoop_of_zeros_prefix (h : List.replicate (lmax + 1) false <+: rest) (hturns : rest.length ≤ turns) :
    decodeLoop turns rest = .error .prefixCutoff ∨ decodeLoop turns rest = .error .offsetCutoff ∨
      ∃ xs, decodeLoop turns rest = .ok xs ∧ ∃ x ∈ xs, lmax + 1 < bitlen x := by
  have hzeros := zeros_prefix_iff.mp h
  have hlen := h.length_le
  rw [List.length_replicate] at hlen
  obtain ⟨turns, rfl⟩ : ∃ k, turns = k + 1 := Nat.exists_eq_add_of_le' (by omega)
  cases boundaryForm rest with
  | zeros L =>
    rw [leadingZeros_zeros] at hzeros
    exact .inl (decodeLoop_zeros turns (by omega)).1
  | shortOffset ht => exact .inr (.inl (decodeLoop_shortOffset turns ht).1)
  | @code x hx u =>
    rw [leadingZeros_gammaCode_append] at hzeros
    rw [(decodeLoop_gammaCode turns hx u).1]
    cases hu : decodeLoop turns u with
    | error err =>
      obtain rfl | rfl := decodeLoop_eq_error hu
      · exact .inl rfl
      · exact .inr (.inl rfl)
    | ok xs => exact .inr (.inr ⟨x :: xs, rfl, x, by simp, by omega⟩)
end

/-- The turns that `decode` has are enough for the codes and what is left. -/
theorem exists_turns (vs : List Nat) (rest : BitString) :
    ∃ turns, rest.length ≤ turns ∧ (vs.flatMap gammaCode ++ rest).length = turns + vs.length := by
  have hcodes : vs.length ≤ (vs.flatMap gammaCode).length := by
    induction vs with
    | nil => simp
    | cons x vs ih =>
      have := List.length_pos_iff.mpr (gammaCode_ne_nil x)
      rw [List.flatMap_cons, List.length_append, List.length_cons]
      omega
  rw [List.length_append]
  exact ⟨(vs.flatMap gammaCode).length - vs.length + rest.length, by omega, by omega⟩

/-- Settles O43: the loop reads the codes of the frame one by one, and comes to what the frame leaves. -/
theorem decodeAgreesWithReference : Obligations.DecodeAgreesWithReference := by
  intro s b hs
  obtain ⟨vs, rest, outcome, rfl, hvs, hrest⟩ := exists_frame s.params b
  obtain ⟨turns, hturns, hfuel⟩ := exists_turns vs rest
  have href : refDecode (vs.flatMap gammaCode ++ rest) = (decodeLoop turns rest).map (vs ++ ·) := by
    rw [refDecode, hfuel, decodeLoop_codes turns (fun x hx => (hvs x hx).1)]
  have hover : (∃ r ∈ codeBoundaries (vs.flatMap gammaCode ++ rest), LMAX s.params.W < leadingZeros r) ↔
      outcome = .valueOverflow := by
    rw [codeBoundaries, hfuel]
    exact (hasOverlong_codes_iff turns (inRange_iff.mp hvs) rest).trans (hrest.hasOverlong_iff hturns)
  rw [hwDecode_frame hs hvs hrest, href]
  constructor
  · intro hshort
    have hne : outcome ≠ .valueOverflow := fun heq => by
      obtain ⟨r, hr, hlong⟩ := hover.mpr heq
      exact absurd (hshort r hr) (by omega)
    rw [(hrest.decodeLoop_eq hne hturns).1, map_append_resultOf, List.append_nil]
    refine ⟨rfl, fun xs hxs => ?_⟩
    obtain ⟨-, rfl⟩ := resultOf_eq_ok_iff.mp hxs
    exact fun x hx => (hvs x hx).2
  · intro hlong
    obtain rfl := hover.mp hlong
    cases hrest with
    | overlong hzeros =>
      refine ⟨rfl, ?_⟩
      obtain heq | heq | ⟨xs, heq, x, hx, hlarge⟩ := decodeLoop_of_zeros_prefix hzeros hturns
      · exact .inl (by rw [heq]; rfl)
      · exact .inr (.inl (by rw [heq]; rfl))
      · have hmax : ¬ x ≤ XMAX s.params.W := (le_XMAX_iff s.params.two_le_W).not.mpr (by omega)
        exact .inr (.inr ⟨vs ++ xs, by rw [heq]; rfl, x, by simp [hx], by omega⟩)

/-! ## The two units apart (R16, R171) -/

section
variable {p : Params} {β γ σ : Type} {f : Transfers → β} {next : Inputs p.W → σ → σ} {obs : Inputs p.W → σ → β}
  {ports : Inputs p.W → γ}

theorem headD_tail_of_map_eq {ι : Type} {g : ι → γ} {l l' : List ι} (h : l.map g = l'.map g) (x : ι) :
    g (l.headD x) = g (l'.headD x) ∧ l.tail.map g = l'.tail.map g := by
  cases l with
  | nil =>
    obtain rfl : l' = [] := by simpa [eq_comm] using h
    exact ⟨rfl, rfl⟩
  | cons i l =>
    cases l' with
    | nil => cases h
    | cons j l' => exact List.cons.inj h

/-- What a run shows of a unit, edge by edge, depends on that unit and its ports only. -/
theorem map_trace_eq (unit : Encoder p.W → Decoder p.W → σ)
    (hnext : ∀ i e d, unit (nextEncoder i e) (nextDecoder i d) = next i (unit e d))
    (hobs : ∀ e d l, f (nextTransfers ⟨p, e, d, l⟩) = obs (l.headD (idleInputs p.W)) (unit e d))
    (hports : ∀ i j x, ports i = ports j → next i x = next j x ∧ obs i x = obs j x)
    (k : Nat) {e e' : Encoder p.W} {d d' : Decoder p.W} {l l' : List (Inputs p.W)} (hunit : unit e d = unit e' d')
    (hl : l.map ports = l'.map ports) : (trace k ⟨p, e, d, l⟩).map f = (trace k ⟨p, e', d', l'⟩).map f := by
  induction k generalizing e e' d d' l l' with
  | zero => rfl
  | succ k ih =>
    obtain ⟨hhead, htail⟩ := headD_tail_of_map_eq hl (idleInputs p.W)
    obtain ⟨hsame, hshown⟩ := hports _ _ (unit e' d') hhead
    rw [trace_succ, trace_succ, List.map_cons, List.map_cons, hobs, hobs, hunit, hshown]
    exact congrArg _ (ih (by rw [hnext, hnext, hunit, hsame]) htail)
end

section
variable {W : Nat} {i j : Inputs W}

theorem nextEncoder_of_encPorts_eq (h : encPorts i = encPorts j) (E : Encoder W) :
    nextEncoder i E = nextEncoder j E ∧ acceptedWord i E = acceptedWord j E ∧
      takenResponse i E = takenResponse j E := by
  obtain ⟨hrst, hvalid, hdata, hready⟩ : _ ∧ _ ∧ _ ∧ _ := by simpa [encPorts] using h
  simp only [nextEncoder, acceptedWord, takenResponse, hrst, hvalid, hdata, hready, and_self]

theorem nextDecoder_of_decPorts_eq (h : decPorts i = decPorts j) (D : Decoder W) :
    nextDecoder i D = nextDecoder j D ∧ acceptedSymbol i D = acceptedSymbol j D ∧
      takenRecord i D = takenRecord j D := by
  obtain ⟨hrst, hvalid, hsym, hready⟩ : _ ∧ _ ∧ _ ∧ _ := by simpa [decPorts] using h
  simp only [nextDecoder, acceptedSymbol, takenRecord, hrst, hvalid, hsym, hready, and_self]
end

/-- Settles O49: `map_trace_eq` for the encoder and for the decoder. -/
theorem unitsDoNotInterfere : Obligations.UnitsDoNotInterfere := by
  intro p e e' d d' l l' k
  constructor
  · refine map_trace_eq (fun e _ => e) (fun _ _ _ => rfl)
      (obs := fun i E => ((acceptedWord i E).map BitVec.toNat, takenResponse i E))
      (fun e d l => Prod.ext (nextTransfers_encIn ⟨p, e, d, l⟩) rfl) (fun i j E h => ?_) k rfl
    obtain ⟨hnext, hword, htaken⟩ := nextEncoder_of_encPorts_eq h E
    exact ⟨hnext, by rw [hword, htaken]⟩
  · refine map_trace_eq (fun _ d => d) (fun _ _ _ => rfl)
      (obs := fun i D => (acceptedSymbol i D, takenRecord i D)) (fun _ _ _ => rfl) (fun i j D h => ?_) k rfl
    obtain ⟨hnext, hsym, htaken⟩ := nextDecoder_of_decPorts_eq h D
    exact ⟨hnext, by rw [hsym, htaken]⟩

end Sys2Proof.Machine
end

section
/-! PROOFS. The decoder's errors (60_exceptions.md R197 to R203): no edge and no run stops the machine, and a failed
frame reports the error it latched. -/

namespace Sys2Proof.Machine

open Sys2Proof.Config

/-- Settles O16: the next state of an edge by `step_eq`, that of a run by `run_eq`. -/
theorem everyRunGoesOn : Obligations.EveryRunGoesOn := by
  rintro ⟨p, e, d, l⟩
  exact ⟨⟨_, _, step_eq p e d l⟩, fun k => ⟨_, run_eq k p e d l⟩⟩

/-! ## A failed frame (R200, R201) -/

section
variable {W : Nat} {D : Decoder W}

/-- R158: in DRAIN no symbol but `DEND` has a record. -/
theorem rowRecord_drain (hfs : D.fs = .drain) {sym : Instr} (hne : sym ≠ .dend) : rowRecord D sym = none := by
  cases sym with
  | dend => exact absurd rfl hne
  | enc | dbit0 | dbit1 | drsv => simp only [rowRecord, fsmTable, fsmView, hfs]

/-- R154: in DRAIN `DEND` reports the latched error. -/
theorem rowRecord_drain_dend (hfs : D.fs = .drain) : rowRecord D .dend = some (.done D.err) := by
  simp only [rowRecord, fsmTable, fsmView, hfs]

/-- R200, R201: the rest of a failed frame loads one record, whatever its symbols; also outside the decoder's
invariant. -/
theorem recordsLoaded_failedFrame (hfs : D.fs = .drain) {syms : List Instr}
    (hsyms : ∀ sym ∈ syms, isSymbol sym = true ∧ sym ≠ .dend) :
    recordsLoaded (syms ++ [.dend]) D = [.done D.err] := by
  induction syms with
  | nil => simp [rowRecord_drain_dend hfs]
  | cons sym syms ih =>
    obtain ⟨hsym, hne⟩ := hsyms sym (by simp)
    rw [List.cons_append, recordsLoaded_cons, rowRecord_drain hfs hne, afterSymbol_drain hfs hsym hne,
      recordsLoaded_out]
    exact ih fun s hs => hsyms s (by simp [hs])
end

/-- R63: the records of the symbols of an unstalled run, also outside the decoder's invariant. -/
theorem ownRecords_eq_recordsLoaded (p : Params) (e : Encoder p.W) (d : Decoder p.W) (l : List (Inputs p.W))
    {syms : List Instr} (hsyms : ∀ sym ∈ syms, isSymbol sym = true) :
    ownRecords ⟨p, e, d, l⟩ syms = recordsLoaded syms d := by
  rw [ownRecords, decOuts_runInstrs, List.drop_left, filterMap_symbolOf, List.filter_eq_self.mpr hsyms]

/-- Settles O42: the records of the run are those its symbols load, by `recordsLoaded_failedFrame` one. -/
theorem failedFrameReportsFirstError : Obligations.FailedFrameReportsFirstError := by
  rintro ⟨p, e, d, l⟩ syms hfs hsyms
  have hframe : ∀ sym ∈ syms ++ [.dend], isSymbol sym = true := by
    simpa [or_imp, forall_and, isSymbol] using fun sym hsym => (hsyms sym hsym).1
  rw [ownRecords_eq_recordsLoaded p e d l hframe]
  exact recordsLoaded_failedFrame hfs hsyms

end Sys2Proof.Machine
end

section
/-! PROOFS. An edge with reset (70_reset_and_hazards.md R220 to R222): what it transfers and leaves, and that a run from it
on forgets the units; and the bound within which an input kept on offer is accepted (R236). -/

namespace Sys2Proof.Machine

open Sys2Proof.Config

/-! ## An edge with reset (R220, R221) -/

section
variable (valid ov outReady : Bool)

@[simp] theorem inReady_rst : inReady true ov outReady = false := rfl
@[simp] theorem inFire_rst : inFire true valid ov outReady = false := Bool.and_false valid
@[simp] theorem outFire_rst : outFire true ov outReady = false := rfl
end

theorem nextEncoder_of_rst {W : Nat} {i : Inputs W} (hrst : i.rst = true) (E : Encoder W) :
    nextEncoder i E = Encoder.reset W := if_pos hrst

theorem nextTransfers_of_rst {s : State} (hrst : (nextInputs s).rst = true) :
    nextTransfers s = ⟨none, none, none, none⟩ := by
  simp [nextTransfers, hrst]

section
variable {p : Params} {i : Inputs p.W} (hrst : i.rst = true) (e : Encoder p.W) (d : Decoder p.W)
  (l : List (Inputs p.W))
include hrst

/-- R220: what an edge with reset leaves does not depend on either unit. -/
theorem step_of_rst : step ⟨p, e, d, i :: l⟩ = .next { State.resetOf p with pending := l } := by
  rw [step_eq, List.headD_cons, nextEncoder_of_rst hrst, nextDecoder_of_rst hrst]
  rfl

/-- R222: a run with reset at its first edge goes on as a run from the reset state. -/
theorem trace_of_rst (k : Nat) : trace (k + 1) ⟨p, e, d, i :: l⟩ =
    ⟨none, none, none, none⟩ :: trace k { State.resetOf p with pending := l } := by
  simp only [trace, step_of_rst hrst, nextTransfers_of_rst (s := ⟨p, e, d, i :: l⟩) hrst]
end

/-- Settles O6: an idle edge has no reset, so the edge is a listed one, and `step_of_rst` gives the state it leaves. -/
theorem resetEdge : Obligations.ResetEdge := by
  rintro ⟨p, e, d, l⟩ hrst
  refine ⟨nextTransfers_of_rst hrst, Encoder.reset p.W, Decoder.reset p.W, ?_,
    rfl, rfl, rfl, rfl, rfl, rfl, rfl, rfl, rfl, rfl, rfl, rfl, rfl⟩
  cases l with
  | nil => cases hrst
  | cons i l => exact step_of_rst hrst e d l

/-- Settles O7: `inReady` is 0 under reset, and the reset state holds no record. -/
theorem resetHoldsReadyLow : Obligations.ResetHoldsReadyLow := by
  intro p e d i l hrst
  refine ⟨?_, ?_, Encoder.reset p.W, Decoder.reset p.W, step_of_rst hrst e d l, fun j => ⟨rfl, rfl⟩⟩
  · simp only [outputs, hrst, inReady_rst]
  · simp only [outputs, hrst, inReady_rst]

/-- Settles O8: by `trace_of_rst` neither run depends on the units before the reset. -/
theorem resetForgetsEarlierWork : Obligations.ResetForgetsEarlierWork := by
  intro p e e' d d' i l k hrst
  refine ⟨?_, trace_of_rst hrst e d l k⟩
  cases k with
  | zero => rfl
  | succ k => rw [trace_of_rst hrst e d, trace_of_rst hrst e' d']

/-! ## An input kept on offer (R236) -/

/-- A unit that shows something or stays as it is at every edge, and shows something at the last one from where it
started, shows something along the run. -/
theorem observed_concat_ne_nil {ι σ β : Type} {next : ι → σ → σ} {obs : ι → σ → Option β} {is : List ι} {i : ι} {x : σ}
    (h : ∀ j ∈ is, (obs j x).isSome = true ∨ next j x = x) (hlast : (obs i x).isSome = true) :
    observed next obs (is ++ [i]) x ≠ [] := by
  induction is with
  | nil => simpa [Option.isSome_iff_ne_none] using hlast
  | cons j is ih =>
    rw [List.cons_append, observed_cons]
    obtain hshown | hkept := h j (by simp)
    · exact List.append_ne_nil_of_left_ne_nil (by simpa [Option.isSome_iff_ne_none] using hshown) _
    · rw [hkept]
      exact List.append_ne_nil_of_right_ne_nil _ (ih fun j hj => h j (by simp [hj]))

/-- R53: an input on offer is accepted, or the unit holds a record that the host does not take. -/
theorem inFire_or_stalled {rst valid : Bool} (ov outReady : Bool) (hrst : rst = false) (hvalid : valid = true) :
    inFire rst valid ov outReady = true ∨ ov = true ∧ outReady = false := by
  subst hrst hvalid
  cases ov with
  | false => exact .inl rfl
  | true => cases outReady with
    | false => exact .inr ⟨rfl, rfl⟩
    | true => exact .inl rfl

section
variable {W : Nat} {i : Inputs W} {E : Encoder W} {D : Decoder W}

@[simp] theorem isSome_acceptedWord :
    (acceptedWord i E).isSome = inFire i.rst i.encInValid E.out.ov i.encOutReady := isSome_ite_some

@[simp] theorem isSome_acceptedSymbol :
    (acceptedSymbol i D).isSome = inFire i.rst i.decInValid D.out.ov i.decOutReady := isSome_ite_some

theorem encoder_accepts_or_stays (hrst : i.rst = false) (hvalid : i.encInValid = true) :
    ((acceptedWord i E).map BitVec.toNat).isSome = true ∨ nextEncoder i E = E := by
  rw [Option.isSome_map, isSome_acceptedWord]
  exact (inFire_or_stalled _ _ hrst hvalid).imp_right fun ⟨hov, hready⟩ => (encoder_stalled hov hrst hready).1

theorem decoder_accepts_or_stays (hrst : i.rst = false) (hvalid : i.decInValid = true) :
    (acceptedSymbol i D).isSome = true ∨ nextDecoder i D = D := by
  rw [isSome_acceptedSymbol]
  exact (inFire_or_stalled _ _ hrst hvalid).imp_right fun ⟨hov, hready⟩ => (decoder_stalled hov hrst hready).1
end

/-- Settles O17: until its input is accepted a unit stays as it is, so at the last edge it is ready. -/
theorem offeredInputIsAccepted : Obligations.OfferedInputIsAccepted := by
  rintro ⟨p, e, d, l⟩ n i hi hrst
  have htake : l.take (n + 1) = l.take n ++ [i] := by rw [List.take_add_one, hi]; rfl
  rw [encIns_trace, decIns_trace]
  simp only [htake, List.forall_mem_append, List.forall_mem_singleton] at hrst ⊢
  obtain ⟨hrst, hrsti⟩ := hrst
  constructor
  · rintro ⟨hvalid, hvalidi⟩ hready
    refine observed_concat_ne_nil (fun j hj => encoder_accepts_or_stays (hrst j hj) (hvalid j hj)) ?_
    rw [Option.isSome_map, isSome_acceptedWord]
    exact inFire_iff.mpr ⟨hvalidi, hrsti, hready⟩
  · rintro ⟨hvalid, hvalidi⟩ hready
    refine observed_concat_ne_nil (fun j hj => decoder_accepts_or_stays (hrst j hj) (hvalid j hj)) ?_
    rw [isSome_acceptedSymbol]
    exact inFire_iff.mpr ⟨hvalidi, hrsti, hready⟩

end Sys2Proof.Machine
end
